-- ==== Sys2Proof/Word.lean ====
section
/-! DEFINITION. The word types of CI512 and its index types (spec/00_scope.md R6, R7, R8). -/

namespace Sys2Proof

/-- One limb of a value register, and one register of the bus window: W = 64 bits (R6, R40). -/
abbrev Word := BitVec 64

/-- One byte of the sequence that LDB imports (R32). -/
abbrev Byte := BitVec 8

/-- A register number: V0 to V7 (R8, R18, R58). -/
abbrev Reg := Fin 8

/-- The LA or LB field of a command word, the operand length less one (R56). -/
abbrev Len := Fin 8

end Sys2Proof
end

