-- ==== Sys2Proof/Syntax.lean ====
section
/-! DEFINITION. The commands of CI512: one constructor of `Instr` for every row of spec/opcode_table.json.
Operands stand in the order of the assembler (spec/30_encoding.md R64). -/

namespace Sys2Proof

/-- The 18 assigned opcodes (spec/30_encoding.md R59). -/
inductive Opcode where
  | zero | ldw | ldb | add | sub | cmp | shl | shr | bitAnd | bitOr | bitXor | bitNot
  | mul | mulf | div | rem | divr | smp
  deriving DecidableEq, Repr

/-- A command, with every operand field the opcode uses (spec/30_encoding.md R56, R57, R60). -/
inductive Instr where
  /-- `ZERO vd` (R93). -/
  | zero (rd : Reg)
  /-- `LDW vd` (R94). -/
  | ldw (rd : Reg)
  /-- `LDB vd` (R95). -/
  | ldb (rd : Reg)
  /-- `ADD vd, vs1, vs2, la, lb` (R68). -/
  | add (rd rs1 rs2 : Reg) (la lb : Len)
  /-- `SUB vd, vs1, vs2, la, lb` (R69). -/
  | sub (rd rs1 rs2 : Reg) (la lb : Len)
  /-- `CMP vs1, vs2, la, lb` (R71). -/
  | cmp (rs1 rs2 : Reg) (la lb : Len)
  /-- `SHL vd, vs1, #n, la` (R73). -/
  | shl (rd rs1 : Reg) (shamt : BitVec 11) (la : Len)
  /-- `SHR vd, vs1, #n, la` (R74). -/
  | shr (rd rs1 : Reg) (shamt : BitVec 11) (la : Len)
  /-- `AND vd, vs1, vs2, la, lb` (R76). -/
  | bitAnd (rd rs1 rs2 : Reg) (la lb : Len)
  /-- `OR vd, vs1, vs2, la, lb` (R77). -/
  | bitOr (rd rs1 rs2 : Reg) (la lb : Len)
  /-- `XOR vd, vs1, vs2, la, lb` (R78). -/
  | bitXor (rd rs1 rs2 : Reg) (la lb : Len)
  /-- `NOT vd, vs1, la` (R79). -/
  | bitNot (rd rs1 : Reg) (la : Len)
  /-- `MUL vd, vs1, vs2, la, lb` (R82). -/
  | mul (rd rs1 rs2 : Reg) (la lb : Len)
  /-- `MULF vd, vd2, vs1, vs2, la, lb` (R83). -/
  | mulf (rd rd2 rs1 rs2 : Reg) (la lb : Len)
  /-- `DIV vd, vs1, vs2, la, lb` (R86). -/
  | div (rd rs1 rs2 : Reg) (la lb : Len)
  /-- `REM vd, vs1, vs2, la, lb` (R87). -/
  | rem (rd rs1 rs2 : Reg) (la lb : Len)
  /-- `DIVR vq, vr, vs1, vs2, la, lb` (R85). -/
  | divr (rd rd2 rs1 rs2 : Reg) (la lb : Len)
  /-- `SMP vd, vs1, la` (R89). -/
  | smp (rd rs1 : Reg) (la : Len)
  deriving DecidableEq, Repr

/-- The opcode a command is written with. -/
def Instr.opcode : Instr → Opcode
  | .zero .. => .zero
  | .ldw .. => .ldw
  | .ldb .. => .ldb
  | .add .. => .add
  | .sub .. => .sub
  | .cmp .. => .cmp
  | .shl .. => .shl
  | .shr .. => .shr
  | .bitAnd .. => .bitAnd
  | .bitOr .. => .bitOr
  | .bitXor .. => .bitXor
  | .bitNot .. => .bitNot
  | .mul .. => .mul
  | .mulf .. => .mulf
  | .div .. => .div
  | .rem .. => .rem
  | .divr .. => .divr
  | .smp .. => .smp

end Sys2Proof
end

