-- ==== Sys2Proof/WellFormed.lean ====
section
/-! DEFINITION. Which commands meet every precondition that the command word alone decides: checks 3 to 6 of
spec/60_exceptions.md R102. A command that is not well-formed still decodes (spec/30_encoding.md R63 leaves
relations between field values to R102), and running it takes the fault that the failed check names. -/

namespace Sys2Proof

/-- The lengths the multiplier takes: 1, 2, 4 and 8 limbs (spec/45_multiply.md R81), as LA fields. -/
def multiplierLengths : List Len := [0, 1, 3, 7]

/-- Checks 3 to 6 of spec/60_exceptions.md R102 in the form R60, R72, R75, R81 and R84 give them. -/
def Instr.wellFormed : Instr → Bool
  | .zero _ => true
  | .ldw _ => true
  | .ldb _ => true
  | .add _ _ _ la lb => lb ≤ la
  | .sub _ _ _ la lb => la = lb
  | .cmp _ _ la lb => la = lb
  | .shl _ _ shamt la => shamt.toNat < 64 * (la.val + 1)
  | .shr _ _ shamt la => shamt.toNat < 64 * (la.val + 1)
  | .bitAnd _ _ _ la lb => la = lb
  | .bitOr _ _ _ la lb => la = lb
  | .bitXor _ _ _ la lb => la = lb
  | .bitNot _ _ _ => true
  | .mul _ _ _ la lb => la = lb ∧ la ∈ multiplierLengths
  | .mulf rd rd2 _ _ la lb => rd ≠ rd2 ∧ la = lb ∧ la ∈ multiplierLengths
  | .div _ _ _ la lb => la = lb
  | .rem _ _ _ la lb => la = lb
  | .divr rd rd2 _ _ la lb => rd ≠ rd2 ∧ la = lb
  | .smp _ _ _ => true

/-- A command whose word passes every check that reads the word alone. -/
abbrev Instr.WellFormed (i : Instr) : Prop := i.wellFormed = true

end Sys2Proof
end

