-- ==== Sys2Proof/Decode.lean ====
section
/-! DEFINITION. Decoding a 64-bit CMD value (spec/30_encoding.md R55 to R63), total, with the two named
refusals of R63, and the encoder written from the same tables. -/

namespace Sys2Proof

/-- OPC, bits 5:0 of the command word (spec/30_encoding.md R59). -/
def Opcode.bits : Opcode → BitVec 6
  | .zero => 0x01
  | .ldw => 0x02
  | .ldb => 0x03
  | .add => 0x08
  | .sub => 0x09
  | .cmp => 0x0C
  | .shl => 0x10
  | .shr => 0x11
  | .bitAnd => 0x14
  | .bitOr => 0x15
  | .bitXor => 0x16
  | .bitNot => 0x17
  | .mul => 0x18
  | .mulf => 0x19
  | .div => 0x1C
  | .rem => 0x1D
  | .divr => 0x1E
  | .smp => 0x20

/-- The `mask` column of spec/opcode_table.json: OPC and every bit that R60 reserves as 0. -/
def Opcode.mask : Opcode → BitVec 32
  | .zero => 0xFFFFFE3F
  | .ldw => 0xFFFFFE3F
  | .ldb => 0xFFFFFE3F
  | .add => 0xFF03803F
  | .sub => 0xFF03803F
  | .cmp => 0xFF0381FF
  | .shl => 0x0003F03F
  | .shr => 0x0003F03F
  | .bitAnd => 0xFF03803F
  | .bitOr => 0xFF03803F
  | .bitXor => 0xFF03803F
  | .bitNot => 0xFFE3F03F
  | .mul => 0xFF03803F
  | .mulf => 0xFF00003F
  | .div => 0xFF03803F
  | .rem => 0xFF03803F
  | .divr => 0xFF00003F
  | .smp => 0xFFE3F03F

/-- The `match` column of spec/opcode_table.json: OPC, every other fixed bit 0. -/
def Opcode.matchBits (op : Opcode) : BitVec 32 := op.bits.setWidth 32

/-- Every assigned opcode, in the table's order. -/
def Opcode.all : List Opcode :=
  [.zero, .ldw, .ldb, .add, .sub, .cmp, .shl, .shr, .bitAnd, .bitOr, .bitXor, .bitNot, .mul, .mulf, .div, .rem,
    .divr, .smp]

/-- The opcode of an OPC value; none where the value is unassigned (R61). -/
def Opcode.ofBits (b : BitVec 6) : Option Opcode := Opcode.all.find? fun op => op.bits == b

/-- The 3-bit field of a command word at bit `lo`: a register number or a length less one (R56, R58). -/
def field3 (w : BitVec 32) (lo : Nat) : Fin 8 := (w.extractLsb' lo 3).toFin

/-- RD, bits 8:6 (R56, R57). -/
def fieldRD (w : BitVec 32) : Reg := field3 w 6
/-- RS1, bits 11:9 (R56, R57). -/
def fieldRS1 (w : BitVec 32) : Reg := field3 w 9
/-- RS2, bits 14:12 (R56). -/
def fieldRS2 (w : BitVec 32) : Reg := field3 w 12
/-- RD2, bits 17:15 (R56). -/
def fieldRD2 (w : BitVec 32) : Reg := field3 w 15
/-- LA, bits 20:18 (R56, R57). -/
def fieldLA (w : BitVec 32) : Len := field3 w 18
/-- LB, bits 23:21 (R56). -/
def fieldLB (w : BitVec 32) : Len := field3 w 21
/-- SHAMT, bits 31:21 (R57). -/
def fieldSHAMT (w : BitVec 32) : BitVec 11 := w.extractLsb' 21 11

/-- The command an opcode makes of a word's operand fields, taken as written; the reserved fields are not
looked at here (spec/60_exceptions.md R103 takes a malformed command's destinations in this way). -/
def operandsOf (op : Opcode) (w : BitVec 32) : Instr :=
  match op with
  | .zero => .zero (fieldRD w)
  | .ldw => .ldw (fieldRD w)
  | .ldb => .ldb (fieldRD w)
  | .add => .add (fieldRD w) (fieldRS1 w) (fieldRS2 w) (fieldLA w) (fieldLB w)
  | .sub => .sub (fieldRD w) (fieldRS1 w) (fieldRS2 w) (fieldLA w) (fieldLB w)
  | .cmp => .cmp (fieldRS1 w) (fieldRS2 w) (fieldLA w) (fieldLB w)
  | .shl => .shl (fieldRD w) (fieldRS1 w) (fieldSHAMT w) (fieldLA w)
  | .shr => .shr (fieldRD w) (fieldRS1 w) (fieldSHAMT w) (fieldLA w)
  | .bitAnd => .bitAnd (fieldRD w) (fieldRS1 w) (fieldRS2 w) (fieldLA w) (fieldLB w)
  | .bitOr => .bitOr (fieldRD w) (fieldRS1 w) (fieldRS2 w) (fieldLA w) (fieldLB w)
  | .bitXor => .bitXor (fieldRD w) (fieldRS1 w) (fieldRS2 w) (fieldLA w) (fieldLB w)
  | .bitNot => .bitNot (fieldRD w) (fieldRS1 w) (fieldLA w)
  | .mul => .mul (fieldRD w) (fieldRS1 w) (fieldRS2 w) (fieldLA w) (fieldLB w)
  | .mulf => .mulf (fieldRD w) (fieldRD2 w) (fieldRS1 w) (fieldRS2 w) (fieldLA w) (fieldLB w)
  | .div => .div (fieldRD w) (fieldRS1 w) (fieldRS2 w) (fieldLA w) (fieldLB w)
  | .rem => .rem (fieldRD w) (fieldRS1 w) (fieldRS2 w) (fieldLA w) (fieldLB w)
  | .divr => .divr (fieldRD w) (fieldRD2 w) (fieldRS1 w) (fieldRS2 w) (fieldLA w) (fieldLB w)
  | .smp => .smp (fieldRD w) (fieldRS1 w) (fieldLA w)

/-- Why a CMD value is no command (spec/30_encoding.md R63). -/
inductive DecodeError where
  /-- CMD[63:32] is not 0, or OPC is unassigned: ILLEGAL_OPCODE. -/
  | illegalOpcode
  /-- OPC is assigned and a reserved field is not 0: RESERVED_FIELD. `i` is the command its operand fields name. -/
  | reservedField (i : Instr)
  deriving DecidableEq, Repr

/-- Steps 1 to 3 of spec/30_encoding.md R63, on the command word. -/
def decodeWord (w : BitVec 32) : Except DecodeError Instr :=
  match Opcode.ofBits (w.extractLsb' 0 6) with
  | none => .error .illegalOpcode
  | some op =>
    if w &&& op.mask = op.matchBits then .ok (operandsOf op w) else .error (.reservedField (operandsOf op w))

/-- Step 0 of spec/30_encoding.md R63, then the command word (R55). -/
def decode (c : BitVec 64) : Except DecodeError Instr :=
  if c.extractLsb' 32 32 = 0 then decodeWord (c.extractLsb' 0 32) else .error .illegalOpcode

/-- What the decoder reads from a table row's bits: the word in the low half of a CMD write, every bit from
`nbits` up being 0 (R55, R62). -/
def decodeTableWord (nbits w : Nat) : Option Instr := (decode (BitVec.ofNat 64 (w % 2 ^ nbits))).toOption

/-- Format R, and format D with every field but RD zero (R56). -/
def formatR (op : Opcode) (rd rs1 rs2 rd2 : Reg) (la lb : Len) : BitVec 32 :=
  0#8 ++ (BitVec.ofFin lb : BitVec 3) ++ (BitVec.ofFin la : BitVec 3) ++ (BitVec.ofFin rd2 : BitVec 3) ++
    (BitVec.ofFin rs2 : BitVec 3) ++ (BitVec.ofFin rs1 : BitVec 3) ++ (BitVec.ofFin rd : BitVec 3) ++ op.bits

/-- Format S (R57). -/
def formatS (op : Opcode) (rd rs1 : Reg) (la : Len) (shamt : BitVec 11) : BitVec 32 :=
  shamt ++ (BitVec.ofFin la : BitVec 3) ++ 0#6 ++ (BitVec.ofFin rs1 : BitVec 3) ++ (BitVec.ofFin rd : BitVec 3) ++
    op.bits

/-- The command word of a command (R56, R57); every field R60 reserves is 0. -/
def encode : Instr → BitVec 32
  | .zero rd => formatR .zero rd 0 0 0 0 0
  | .ldw rd => formatR .ldw rd 0 0 0 0 0
  | .ldb rd => formatR .ldb rd 0 0 0 0 0
  | .add rd rs1 rs2 la lb => formatR .add rd rs1 rs2 0 la lb
  | .sub rd rs1 rs2 la lb => formatR .sub rd rs1 rs2 0 la lb
  | .cmp rs1 rs2 la lb => formatR .cmp 0 rs1 rs2 0 la lb
  | .shl rd rs1 shamt la => formatS .shl rd rs1 la shamt
  | .shr rd rs1 shamt la => formatS .shr rd rs1 la shamt
  | .bitAnd rd rs1 rs2 la lb => formatR .bitAnd rd rs1 rs2 0 la lb
  | .bitOr rd rs1 rs2 la lb => formatR .bitOr rd rs1 rs2 0 la lb
  | .bitXor rd rs1 rs2 la lb => formatR .bitXor rd rs1 rs2 0 la lb
  | .bitNot rd rs1 la => formatR .bitNot rd rs1 0 0 la 0
  | .mul rd rs1 rs2 la lb => formatR .mul rd rs1 rs2 0 la lb
  | .mulf rd rd2 rs1 rs2 la lb => formatR .mulf rd rs1 rs2 rd2 la lb
  | .div rd rs1 rs2 la lb => formatR .div rd rs1 rs2 0 la lb
  | .rem rd rs1 rs2 la lb => formatR .rem rd rs1 rs2 0 la lb
  | .divr rd rd2 rs1 rs2 la lb => formatR .divr rd rs1 rs2 rd2 la lb
  | .smp rd rs1 la => formatR .smp rd rs1 0 0 la 0

/-- The 64-bit CMD value that offers a command (R55). -/
def cmdValue (i : Instr) : BitVec 64 := (encode i).setWidth 64

end Sys2Proof
end

