-- ==== Sys2Proof/Config.lean ====
section
/-! DEFINITION. What the spec leaves open: the free values and the window's base address. -/

namespace Sys2Proof

/-- DESIGN CHOICE (notes/assumptions/2.md). The unspecified values of spec/10_state.md R19, R24, R25 and
spec/20_memory.md R42, one for every value of the counter `State.draws`. It has no body, so no proof can rest
on any of them. Safe. -/
opaque Config.freeWord : Nat → Word

/-- The platform's choice of BASE, counted in windows of 0x400 bytes (spec/20_memory.md R39, an open
parameter; notes/assumptions/11.md). Safe. -/
opaque Config.baseIndex : Nat

/-- BASE: a multiple of 0x400 (spec/20_memory.md R39). -/
def Config.base : Nat := 0x400 * Config.baseIndex

end Sys2Proof
end

