-- ==== Sys2Proof/Machine/State.lean ====
section
/-! DEFINITION. The state of CI512 (spec/10_state.md R37), of its ports, and of the other agents as plain data;
the reasons a step stops; and the state after reset (spec/70_reset_and_hazards.md R114). -/

namespace Sys2Proof.Machine

/-- A limb of a value register: a 64-bit value, or the spec's mark UNDEF (R19). -/
inductive Limb where
  | undef
  | word (w : Word)
  deriving DecidableEq, Repr

/-- The four values of STATUS.CMPR (R25). -/
inductive CmpResult where
  | equal
  | less
  | greater
  /-- NONE: no CMP has completed since reset. -/
  | noResult
  deriving DecidableEq, Repr

/-- The fault causes of spec/60_exceptions.md R101, in the order of their codes 1 to 10. -/
inductive Cause where
  | illegalOpcode
  | reservedField
  | destConflict
  | lengthMismatch
  | lengthNotPow2
  | shiftRange
  | bytesOversize
  | divZero
  | zeroBound
  | busyWrite
  deriving DecidableEq, Repr

/-- The pending-command latch (R35): the accepted command and the operand values read at issue. The command is
held decoded; `cmdValue cmd` is the 64-bit value written to CMD (notes/assumptions/9.md). A source operand
shorter than 8 limbs is held zero-extended. -/
structure Latch where
  cmd     : Instr
  a       : BitVec 512
  b       : BitVec 512
  data    : Word
  bytelen : Word
  bytebuf : Vector Word 8
  deriving DecidableEq, Repr

/-- The sampler's progress (R36): the candidate limbs, whether every limb drawn so far equals the bound's, and
how many limbs are still to draw, so that the next one is limb `left - 1`. With `left = 0` the candidate is
accepted and waits to be written (notes/assumptions/10.md). -/
structure Sampler where
  cand : Vector Word 8
  eq   : Bool
  left : Nat
  deriving DecidableEq, Repr

/-- What an agent outside the unit's own state does next (spec/00_scope.md R15). Offsets are from BASE. -/
inductive Input where
  /-- The unit makes progress on the command in flight (spec/60_exceptions.md R99). -/
  | tick
  /-- The host reads `width` bytes at `offset` (spec/20_memory.md R41). -/
  | read (offset : BitVec 10) (width : Nat)
  /-- The host writes `width` bytes at `offset` (spec/20_memory.md R41). -/
  | write (offset : BitVec 10) (width : Nat) (value : Word)
  /-- The random source offers its next word (spec/47_sample.md R88). -/
  | offer (w : Word)
  /-- The input `rst` is sampled high (spec/70_reset_and_hazards.md R114). -/
  | rstHigh
  /-- The input `rst` is sampled low again. -/
  | rstLow
  deriving DecidableEq, Repr

/-- The whole state. STATUS.BUSY is the view `State.busy`, PARAM a constant, CMD and CTRL hold no state. -/
structure State where
  /-- V0 to V7, limb 0 first (R18, R19). -/
  v         : Vector (Vector Limb 8) 8
  /-- STATUS.FAULT (R23). -/
  fault     : Bool
  /-- STATUS.C (R24). -/
  c         : Bool
  /-- STATUS.CMPR (R25). -/
  cmpr      : CmpResult
  /-- STATUS.FCAUSE (R26). -/
  fcause    : BitVec 4
  /-- FCMD (R28). -/
  fcmd      : Word
  /-- DATA (R29). -/
  data      : Word
  /-- BYTELEN (R31). -/
  bytelen   : Word
  /-- BYTEBUF[0..7] (R32). -/
  bytebuf   : Vector Word 8
  /-- The pending-command latch; empty between commands (R35). -/
  pending   : Option Latch
  /-- The sampler's progress; empty outside an SMP and before its first word (R36). -/
  sampler   : Option Sampler
  /-- The level of the input `rst` (R38, R114). -/
  rst       : Bool
  /-- The read data of the bus port: what the last read access returned (R38; notes/assumptions/6.md). -/
  rdata     : Word
  /-- Random words offered and not yet taken, oldest first (R88; notes/assumptions/5.md). -/
  rngQueue  : List Word
  /-- The random source's cursor: how many words the unit has taken (R88). -/
  rngCursor : Nat
  /-- What the other agents do next, oldest first. The model's own field (notes/assumptions/3.md). -/
  inputs    : List Input
  /-- The counter that `Config.freeWord` is applied to. The model's own field (notes/assumptions/2.md). -/
  draws     : Nat
  /-- The model-only fault ReadUndef has been recorded (R107). The model's own field (notes/assumptions/1.md). -/
  readUndef : Bool
  deriving DecidableEq, Repr

/-- The machine's own faults. There is none: every fault of spec/60_exceptions.md R101 leaves CI512 running in
its sticky fault state, which is a next state. -/
inductive Fault where
  deriving DecidableEq, Repr

/-- Why a step is not admitted. -/
inductive Refusal where
  /-- Raised by an arm of `exec` that has no meaning yet. No arm does. Safe. -/
  | notModelled (mnemonic : String)
  /-- Raised by `step` for a bus access while the input `rst` is high: "no bus access is admitted during reset"
  (spec/70_reset_and_hazards.md R114, spec/93_implementation_defined.md U9; notes/assumptions/7.md). Safe. -/
  | accessDuringReset
  deriving DecidableEq, Repr

/-- The outcome of a step, and of one command. -/
abbrev Out := Host.Outcome State Fault Refusal

/-- Every limb UNDEF (R18, R19). -/
def allUndef : Vector (Vector Limb 8) 8 := Vector.replicate 8 (Vector.replicate 8 .undef)

/-- The machine right after reset: the unit at the values of spec/10_state.md R37, the ports and the model's own
fields at the values of notes/assumptions/2.md, 3.md, 5.md, 6.md and 7.md. -/
def State.reset : State where
  v         := allUndef
  fault     := false
  c         := false
  cmpr      := .noResult
  fcause    := 0
  fcmd      := 0
  data      := 0
  bytelen   := 0
  bytebuf   := Vector.replicate 8 0
  pending   := none
  sampler   := none
  rst       := false
  rdata     := 0
  rngQueue  := []
  rngCursor := 0
  inputs    := []
  draws     := 0
  readUndef := false

end Sys2Proof.Machine
end

