-- ==== Sys2Proof/Machine/Flags.lean ====
section
/-! DEFINITION. Every flag computation of the spec (carry, borrow, comparison) and the STATUS word. -/

namespace Sys2Proof.Machine

/-- STATUS.BUSY (spec/10_state.md R22): a command is in flight exactly while the latch holds one (R35;
notes/assumptions/8.md). -/
def State.busy (s : State) : Bool := s.pending.isSome

/-- The carry out of an addition into `n` limbs: the true sum is at least 2^(64n) (spec/41_additive.md R66). -/
def carryOut (n a b : Nat) : Bool := decide (2 ^ (64 * n) ≤ a + b)

/-- The borrow out of a subtraction: the minuend is below the subtrahend (spec/41_additive.md R66). -/
def borrowOut (a b : Nat) : Bool := decide (a < b)

/-- Limb `i` of the number `x` (spec/00_scope.md R11). -/
def limbOf (x i : Nat) : Word := BitVec.ofNat 64 (x / 2 ^ (64 * i))

/-- The comparator's scan of limbs `n - 1` down to 0: the first unequal pair decides (spec/42_compare.md R70, R71). -/
def compareLimbs (a b : Nat) : Nat → CmpResult
  | 0 => .equal
  | i + 1 =>
    if limbOf a i = limbOf b i then compareLimbs a b i
    else if limbOf a i < limbOf b i then .less
    else .greater

/-- STATUS.CMPR's two bits (spec/10_state.md R25). -/
def CmpResult.code : CmpResult → BitVec 2
  | .equal => 0b00
  | .less => 0b01
  | .greater => 0b10
  | .noResult => 0b11

/-- The comparison result that two bits stand for. -/
def CmpResult.ofCode (b : BitVec 2) : CmpResult :=
  if b = 0b00 then .equal else if b = 0b01 then .less else if b = 0b10 then .greater else .noResult

/-- The cause code recorded in STATUS.FCAUSE (spec/60_exceptions.md R101). -/
def Cause.code : Cause → BitVec 4
  | .illegalOpcode => 1
  | .reservedField => 2
  | .destConflict => 3
  | .lengthMismatch => 4
  | .lengthNotPow2 => 5
  | .shiftRange => 6
  | .bytesOversize => 7
  | .divZero => 8
  | .zeroBound => 9
  | .busyWrite => 10

/-- STATUS (spec/10_state.md R21): FCAUSE in 11:8, CMPR in 4:3, C, FAULT and BUSY in 2, 1 and 0, the rest 0. -/
def statusWord (s : State) : Word :=
  0#52 ++ s.fcause ++ 0#3 ++ s.cmpr.code ++ BitVec.ofBool s.c ++ BitVec.ofBool s.fault ++ BitVec.ofBool s.busy

/-- The flag a command writes (spec/10_state.md R24, R25). -/
inductive FlagName where
  | noFlag
  | carry
  | comparison
  deriving DecidableEq, Repr

/-- ADD and SUB write C, CMP writes CMPR, no other command writes a flag (R24, R25). -/
def flagOf : Instr → FlagName
  | .add .. => .carry
  | .sub .. => .carry
  | .cmp .. => .comparison
  | .zero .. => .noFlag
  | .ldw .. => .noFlag
  | .ldb .. => .noFlag
  | .shl .. => .noFlag
  | .shr .. => .noFlag
  | .bitAnd .. => .noFlag
  | .bitOr .. => .noFlag
  | .bitXor .. => .noFlag
  | .bitNot .. => .noFlag
  | .mul .. => .noFlag
  | .mulf .. => .noFlag
  | .div .. => .noFlag
  | .rem .. => .noFlag
  | .divr .. => .noFlag
  | .smp .. => .noFlag

end Sys2Proof.Machine
end

