-- ==== Sys2Proof/Machine/Operands.lean ====
section
/-! DEFINITION. Every operand form of the spec: lengths, source and destination registers of each command,
reading limbs (UNDEF ones too), and the byte sequence of LDB. -/

namespace Sys2Proof.Machine

/-- L = LA + 1 or LB + 1, in 1..8 (spec/30_encoding.md R58). -/
def limbs (l : Len) : Nat := l.val + 1

/-- Limb `i` of a register; an index past the last limb reads as UNDEF. -/
def limbAt (row : Vector Limb 8) (i : Nat) : Limb := if h : i < 8 then row[i] else .undef

/-- Limb `i` of `V[r]` (spec/00_scope.md R12). -/
def State.limb (s : State) (r : Reg) (i : Nat) : Limb := limbAt s.v[r] i

/-- A read of one limb: its value, or for UNDEF an unspecified value, the free value numbered `k`
(spec/10_state.md R19; notes/assumptions/1.md, 2.md). -/
def readLimb (l : Limb) (k : Nat) : Word :=
  match l with
  | .word w => w
  | .undef => Config.freeWord k

/-- `rd_L`: the low `n` limbs of a register as a number, limb 0 least significant (spec/00_scope.md R11, R12).
An UNDEF limb `i` reads as the free value numbered `k + i`. -/
def rdL (row : Vector Limb 8) (k : Nat) : Nat → Nat
  | 0 => 0
  | n + 1 => rdL row k n + (readLimb (limbAt row n) (k + n)).toNat * 2 ^ (64 * n)

/-- Does reading the low `n` limbs touch an UNDEF limb (spec/10_state.md R19)? -/
def touchesUndef (row : Vector Limb 8) : Nat → Bool
  | 0 => false
  | n + 1 => touchesUndef row n || limbAt row n == .undef

/-- A source operand: a register and how many of its low limbs take part (spec/00_scope.md R17). -/
abbrev Source := Option (Reg × Nat)

/-- The operand A: RS1 over L_A limbs (spec/30_encoding.md R58, R60). -/
def sourceA : Instr → Source
  | .zero _ => none
  | .ldw _ => none
  | .ldb _ => none
  | .add _ rs1 _ la _ => some (rs1, limbs la)
  | .sub _ rs1 _ la _ => some (rs1, limbs la)
  | .cmp rs1 _ la _ => some (rs1, limbs la)
  | .shl _ rs1 _ la => some (rs1, limbs la)
  | .shr _ rs1 _ la => some (rs1, limbs la)
  | .bitAnd _ rs1 _ la _ => some (rs1, limbs la)
  | .bitOr _ rs1 _ la _ => some (rs1, limbs la)
  | .bitXor _ rs1 _ la _ => some (rs1, limbs la)
  | .bitNot _ rs1 la => some (rs1, limbs la)
  | .mul _ rs1 _ la _ => some (rs1, limbs la)
  | .mulf _ _ rs1 _ la _ => some (rs1, limbs la)
  | .div _ rs1 _ la _ => some (rs1, limbs la)
  | .rem _ rs1 _ la _ => some (rs1, limbs la)
  | .divr _ _ rs1 _ la _ => some (rs1, limbs la)
  | .smp _ rs1 la => some (rs1, limbs la)

/-- The operand B: RS2 over L_B limbs (spec/30_encoding.md R58, R60). -/
def sourceB : Instr → Source
  | .zero _ => none
  | .ldw _ => none
  | .ldb _ => none
  | .add _ _ rs2 _ lb => some (rs2, limbs lb)
  | .sub _ _ rs2 _ lb => some (rs2, limbs lb)
  | .cmp _ rs2 _ lb => some (rs2, limbs lb)
  | .shl _ _ _ _ => none
  | .shr _ _ _ _ => none
  | .bitAnd _ _ rs2 _ lb => some (rs2, limbs lb)
  | .bitOr _ _ rs2 _ lb => some (rs2, limbs lb)
  | .bitXor _ _ rs2 _ lb => some (rs2, limbs lb)
  | .bitNot _ _ _ => none
  | .mul _ _ rs2 _ lb => some (rs2, limbs lb)
  | .mulf _ _ _ rs2 _ lb => some (rs2, limbs lb)
  | .div _ _ rs2 _ lb => some (rs2, limbs lb)
  | .rem _ _ rs2 _ lb => some (rs2, limbs lb)
  | .divr _ _ _ rs2 _ lb => some (rs2, limbs lb)
  | .smp _ _ _ => none

/-- The destinations: each register with how many of its low limbs the command writes
(spec/10_state.md R20, spec/30_encoding.md R60). -/
def destsOf : Instr → List (Reg × Nat)
  | .zero rd => [(rd, 8)]
  | .ldw rd => [(rd, 8)]
  | .ldb rd => [(rd, 8)]
  | .add rd _ _ la _ => [(rd, limbs la)]
  | .sub rd _ _ la _ => [(rd, limbs la)]
  | .cmp _ _ _ _ => []
  | .shl rd _ _ la => [(rd, limbs la)]
  | .shr rd _ _ la => [(rd, limbs la)]
  | .bitAnd rd _ _ la _ => [(rd, limbs la)]
  | .bitOr rd _ _ la _ => [(rd, limbs la)]
  | .bitXor rd _ _ la _ => [(rd, limbs la)]
  | .bitNot rd _ la => [(rd, limbs la)]
  | .mul rd _ _ la _ => [(rd, limbs la)]
  | .mulf rd rd2 _ _ la _ => [(rd, limbs la), (rd2, limbs la)]
  | .div rd _ _ la _ => [(rd, limbs la)]
  | .rem rd _ _ la _ => [(rd, limbs la)]
  | .divr rd rd2 _ _ la _ => [(rd, limbs la), (rd2, limbs la)]
  | .smp rd _ la => [(rd, limbs la)]

/-- A source operand's value, its UNDEF limbs read as free values from number `k` on. -/
def sourceValue (s : State) (src : Source) (k : Nat) : BitVec 512 :=
  match src with
  | none => 0
  | some (r, n) => BitVec.ofNat 512 (rdL s.v[r] k n)

/-- Does reading a source operand touch an UNDEF limb? -/
def sourceUndef (s : State) (src : Source) : Bool :=
  match src with
  | none => false
  | some (r, n) => touchesUndef s.v[r] n

/-- Limb or word `i` of eight words; past the end it is 0. -/
def wordAt (ws : Vector Word 8) (i : Nat) : Word := if h : i < 8 then ws[i] else 0

/-- Byte `b[k]` of the sequence: with k = 8j + m, bits 63-8m to 56-8m of BYTEBUF[j] (spec/10_state.md R32). -/
def byteAt (buf : Vector Word 8) (k : Nat) : Byte := (wordAt buf (k / 8)).extractLsb' (56 - 8 * (k % 8)) 8

/-- The big-endian number b[0..n-1]: the sum of b[k] * 256^(n-1-k) (spec/48_wrapper.md R95, spec/20_memory.md R44). -/
def bytesValue (buf : Vector Word 8) : Nat → Nat
  | 0 => 0
  | n + 1 => bytesValue buf n * 256 + (byteAt buf n).toNat

end Sys2Proof.Machine
end

