-- ==== Sys2Proof/Machine/Ops.lean ====
section
/-! DEFINITION. The named operations every command shares: writing limbs, the checks made of the command word,
taking a fault, reset (the only way out of a fault), and a command's life from acceptance to completion. -/

namespace Sys2Proof.Machine

/-- A register's limbs with the low `n` replaced. -/
def setLow (old : Vector Limb 8) (n : Nat) (g : Nat → Limb) : Vector Limb 8 :=
  Vector.ofFn fun i => if i.val < n then g i.val else old[i]

/-- Replace the low `n` limbs of `V[r]`; the others are unchanged (spec/00_scope.md R12). -/
def writeLow (r : Reg) (n : Nat) (g : Nat → Limb) (s : State) : State :=
  { s with v := s.v.set r.val (setLow s.v[r] n g) r.isLt }

/-- Write words to the low `n` limbs of `V[r]`, limb by limb. -/
def writeWords (r : Reg) (n : Nat) (g : Nat → Word) (s : State) : State := writeLow r n (fun i => .word (g i)) s

/-- `wr_L`: the low `n` limbs of `V[r]` take the number `x` (spec/00_scope.md R12). -/
def wrL (r : Reg) (n x : Nat) (s : State) : State := writeWords r n (limbOf x) s

/-- Every named destination limb becomes UNDEF (spec/10_state.md R19, spec/60_exceptions.md R103). -/
def undefDests : List (Reg × Nat) → State → State
  | [], s => s
  | (r, n) :: ds, s => undefDests ds (writeLow r n (fun _ => .undef) s)

/-- The named flag becomes unspecified: a draw (spec/10_state.md R24, R25; notes/assumptions/2.md). -/
def unsettleFlag (f : FlagName) (s : State) : State :=
  match f with
  | .noFlag => s
  | .carry => { s with c := (Config.freeWord s.draws).getLsbD 0, draws := s.draws + 1 }
  | .comparison => { s with cmpr := .ofCode ((Config.freeWord s.draws).extractLsb' 0 2), draws := s.draws + 1 }

/-- Taking a fault (spec/60_exceptions.md R103): FAULT, FCAUSE and FCMD are set, BUSY and the latch are
cleared, the destination limbs `dests` become UNDEF and the flag `f` unspecified; all else is unchanged. -/
def takeFault (k : Cause) (fcmd : Word) (dests : List (Reg × Nat)) (f : FlagName) (s : State) : State :=
  { unsettleFlag f (undefDests dests s) with
    fault := true, fcause := k.code, fcmd := fcmd, pending := none, sampler := none }

/-- A fault of a command whose operand fields are known: causes 2 to 9. `c` is the value written to CMD. -/
def takeCommandFault (k : Cause) (c : Word) (i : Instr) (s : State) : State :=
  takeFault k c (destsOf i) (flagOf i) s

/-- Reset of the unit (spec/70_reset_and_hazards.md R114), and the only return from a fault (R106). A command
in flight is dropped. The random source, the ports and the other agents are not touched. -/
def unitReset (s : State) : State :=
  { s with
    v := allUndef, fault := false, c := false, cmpr := .noResult, fcause := 0, fcmd := 0, data := 0, bytelen := 0,
    bytebuf := Vector.replicate 8 0, pending := none, sampler := none }

/-- DEST_CONFLICT where the two destinations are one register (spec/60_exceptions.md R101). -/
def checkDests (rd rd2 : Reg) : Option Cause := if rd = rd2 then some .destConflict else none

/-- LENGTH_MISMATCH where equal lengths are required (spec/60_exceptions.md R101). -/
def checkEqualLengths (la lb : Len) : Option Cause := if limbs la = limbs lb then none else some .lengthMismatch

/-- LENGTH_MISMATCH of ADD: the accumulator is shorter than the addend (spec/60_exceptions.md R101). -/
def checkAccumulator (la lb : Len) : Option Cause := if limbs la < limbs lb then some .lengthMismatch else none

/-- LENGTH_NOT_POW2: the multiplier takes 1, 2, 4 or 8 limbs (spec/45_multiply.md R81). -/
def checkPow2 (la : Len) : Option Cause := if limbs la ∈ [1, 2, 4, 8] then none else some .lengthNotPow2

/-- SHIFT_RANGE: the count reaches the operand's width (spec/43_shift.md R72). -/
def checkShift (shamt : BitVec 11) (la : Len) : Option Cause :=
  if shamt.toNat < 64 * limbs la then none else some .shiftRange

/-- BYTES_OVERSIZE: the sequence is longer than 64 bytes (spec/48_wrapper.md R95). -/
def checkBytes (bytelen : Word) : Option Cause := if 64 < bytelen.toNat then some .bytesOversize else none

/-- DIV_ZERO: the divisor is 0 (spec/46_divide.md R84). -/
def checkDivisor (p : Latch) : Option Cause := if p.b = 0 then some .divZero else none

/-- ZERO_BOUND: the sampler's bound is 0 (spec/47_sample.md R89). -/
def checkBound (p : Latch) : Option Cause := if p.a = 0 then some .zeroBound else none

/-- No check of the operand values. -/
def noCheck (_ : Latch) : Option Cause := none

/-- What the latch takes at acceptance (spec/10_state.md R35): all source limbs are read here (R20). -/
def latchOf (i : Instr) (s : State) : Latch where
  cmd     := i
  a       := sourceValue s (sourceA i) s.draws
  b       := sourceValue s (sourceB i) (s.draws + 8)
  data    := s.data
  bytelen := s.bytelen
  bytebuf := s.bytebuf

/-- Does a command's operand read touch an UNDEF limb (spec/10_state.md R19)? -/
def readsUndef (i : Instr) (s : State) : Bool := sourceUndef s (sourceA i) || sourceUndef s (sourceB i)

/-- The record of an operand read: where it touches an UNDEF limb, ReadUndef is recorded and the free values of
both operands are used up (spec/60_exceptions.md R107; notes/assumptions/1.md). -/
def noteReads (i : Instr) (s : State) : State :=
  if readsUndef i s then { s with readUndef := true, draws := s.draws + 16 } else s

/-- A CMD write that offers the command `i` to an idle unit (spec/60_exceptions.md R98.3, R102): `pre` is the
first failing check of those that read the command word and BYTELEN, `check` those that read operand values.
Where none fails the command is accepted, BUSY becomes 1 and the sampler's progress is empty. -/
def issue (i : Instr) (pre : Option Cause) (check : Latch → Option Cause) (s : State) : State :=
  match pre with
  | some k => takeCommandFault k (cmdValue i) i s
  | none =>
    match check (latchOf i s) with
    | some k => takeCommandFault k (cmdValue i) i (noteReads i s)
    | none => { noteReads i s with pending := some (latchOf i s), sampler := none }

/-- Completion (spec/60_exceptions.md R99): BUSY becomes 0 and the latch is cleared. -/
def complete (s : State) : State := { s with pending := none, sampler := none }

/-- A command's life (spec/60_exceptions.md R98, R99; notes/assumptions/13.md). On a faulted unit it is ignored
(R23). On an idle unit it is offered: checked, and accepted or faulted. In flight, the unit makes progress on the
latch `p`, which for every command but SMP is its completion. -/
def command (i : Instr) (pre : Option Cause) (check : Latch → Option Cause) (progress : Latch → State → State)
    (s : State) : Out :=
  .next (if s.fault then s else match s.pending with
    | none => issue i pre check s
    | some p => progress p s)

end Sys2Proof.Machine
end

