-- ==== Sys2Proof/Machine/Additive.lean ====
section
/-! DEFINITION. The additive core: ADD and SUB (spec/41_additive.md). -/

namespace Sys2Proof.Machine

/-- `ADD`: the sum modulo 2^(64 L_A), and its carry in STATUS.C (spec/41_additive.md R68). -/
def execAdd (rd rs1 rs2 : Reg) (la lb : Len) (s : State) : Out :=
  command (.add rd rs1 rs2 la lb) (checkAccumulator la lb) noCheck
    (fun p s =>
      complete { wrL rd (limbs la) ((p.a.toNat + p.b.toNat) % 2 ^ (64 * limbs la)) s with
        c := carryOut (limbs la) p.a.toNat p.b.toNat }) s

/-- `SUB`: the difference modulo 2^(64 L), and its borrow in STATUS.C (spec/41_additive.md R69). -/
def execSub (rd rs1 rs2 : Reg) (la lb : Len) (s : State) : Out :=
  command (.sub rd rs1 rs2 la lb) (checkEqualLengths la lb) noCheck
    (fun p s =>
      complete { wrL rd (limbs la) (((p.a.toNat : Int) - p.b.toNat) % 2 ^ (64 * limbs la)).toNat s with
        c := borrowOut p.a.toNat p.b.toNat }) s

end Sys2Proof.Machine
end

