-- ==== Sys2Proof/Machine/Bitwise.lean ====
section
/-! DEFINITION. The bitwise engine: AND, OR, XOR, NOT, limb by limb (spec/44_bitwise.md R75). -/

namespace Sys2Proof.Machine

/-- A two-operand bitwise command: limb i of the result depends on limb i of each operand (spec/44_bitwise.md R75). -/
def lanewise (f : Word → Word → Word) (rd : Reg) (n : Nat) (p : Latch) (s : State) : State :=
  complete (writeWords rd n (fun i => f (limbOf p.a.toNat i) (limbOf p.b.toNat i)) s)

/-- `AND` (spec/44_bitwise.md R76). -/
def execBitAnd (rd rs1 rs2 : Reg) (la lb : Len) (s : State) : Out :=
  command (.bitAnd rd rs1 rs2 la lb) (checkEqualLengths la lb) noCheck
    (lanewise (fun x y => x &&& y) rd (limbs la)) s

/-- `OR` (spec/44_bitwise.md R77). -/
def execBitOr (rd rs1 rs2 : Reg) (la lb : Len) (s : State) : Out :=
  command (.bitOr rd rs1 rs2 la lb) (checkEqualLengths la lb) noCheck
    (lanewise (fun x y => x ||| y) rd (limbs la)) s

/-- `XOR` (spec/44_bitwise.md R78). -/
def execBitXor (rd rs1 rs2 : Reg) (la lb : Len) (s : State) : Out :=
  command (.bitXor rd rs1 rs2 la lb) (checkEqualLengths la lb) noCheck
    (lanewise (fun x y => x ^^^ y) rd (limbs la)) s

/-- `NOT`: one operand, no length relation (spec/44_bitwise.md R79). -/
def execBitNot (rd rs1 : Reg) (la : Len) (s : State) : Out :=
  command (.bitNot rd rs1 la) none noCheck
    (fun p s => complete (writeWords rd (limbs la) (fun i => ~~~ limbOf p.a.toNat i) s)) s

end Sys2Proof.Machine
end

