-- ==== Sys2Proof/Machine/Compare.lean ====
section
/-! DEFINITION. The comparator: CMP (spec/42_compare.md). -/

namespace Sys2Proof.Machine

/-- `CMP`: STATUS.CMPR takes the lexicographic order of the limbs (spec/42_compare.md R71). -/
def execCmp (rs1 rs2 : Reg) (la lb : Len) (s : State) : Out :=
  command (.cmp rs1 rs2 la lb) (checkEqualLengths la lb) noCheck
    (fun p s => complete { s with cmpr := compareLimbs p.a.toNat p.b.toNat (limbs la) }) s

end Sys2Proof.Machine
end

