-- ==== Sys2Proof/Machine/Divide.lean ====
section
/-! DEFINITION. The division engine: DIV, REM, DIVR, exact floor division (spec/46_divide.md R84). -/

namespace Sys2Proof.Machine

/-- `DIV`: the quotient (spec/46_divide.md R86). -/
def execDiv (rd rs1 rs2 : Reg) (la lb : Len) (s : State) : Out :=
  command (.div rd rs1 rs2 la lb) (checkEqualLengths la lb) checkDivisor
    (fun p s => complete (wrL rd (limbs la) (p.a.toNat / p.b.toNat) s)) s

/-- `REM`: the remainder (spec/46_divide.md R87). -/
def execRem (rd rs1 rs2 : Reg) (la lb : Len) (s : State) : Out :=
  command (.rem rd rs1 rs2 la lb) (checkEqualLengths la lb) checkDivisor
    (fun p s => complete (wrL rd (limbs la) (p.a.toNat % p.b.toNat) s)) s

/-- `DIVR`: the quotient in RD, the remainder in RD2 (spec/46_divide.md R85). -/
def execDivr (rd rd2 rs1 rs2 : Reg) (la lb : Len) (s : State) : Out :=
  command (.divr rd rd2 rs1 rs2 la lb) ((checkDests rd rd2).or (checkEqualLengths la lb)) checkDivisor
    (fun p s =>
      complete (wrL rd2 (limbs la) (p.a.toNat % p.b.toNat) (wrL rd (limbs la) (p.a.toNat / p.b.toNat) s))) s

end Sys2Proof.Machine
end

