-- ==== Sys2Proof/Machine/Multiply.lean ====
section
/-! DEFINITION. The multiplication engine: MUL and MULF (spec/45_multiply.md). -/

namespace Sys2Proof.Machine

/-- `MUL`: the low half of the exact product (spec/45_multiply.md R82). -/
def execMul (rd rs1 rs2 : Reg) (la lb : Len) (s : State) : Out :=
  command (.mul rd rs1 rs2 la lb) ((checkEqualLengths la lb).or (checkPow2 la)) noCheck
    (fun p s => complete (wrL rd (limbs la) (p.a.toNat * p.b.toNat % 2 ^ (64 * limbs la)) s)) s

/-- `MULF`: the low half of the exact product in RD, the high half in RD2 (spec/45_multiply.md R83). -/
def execMulf (rd rd2 rs1 rs2 : Reg) (la lb : Len) (s : State) : Out :=
  command (.mulf rd rd2 rs1 rs2 la lb)
    ((checkDests rd rd2).or ((checkEqualLengths la lb).or (checkPow2 la))) noCheck
    (fun p s =>
      complete (wrL rd2 (limbs la) (p.a.toNat * p.b.toNat / 2 ^ (64 * limbs la))
        (wrL rd (limbs la) (p.a.toNat * p.b.toNat % 2 ^ (64 * limbs la)) s))) s

end Sys2Proof.Machine
end

