-- ==== Sys2Proof/Machine/Sample.lean ====
section
/-! DEFINITION. The bounded sampler SMP and the random-number front end (spec/47_sample.md). -/

namespace Sys2Proof.Machine

/-- The 1-based position of the highest set bit, 0 for 0 (spec/00_scope.md R14). -/
def msbIndex (x : Nat) : Nat := if x = 0 then 0 else Nat.log2 x + 1

/-- t, the top limb the bound needs: ceil(m / 64) - 1 (spec/47_sample.md R89). -/
def topLimb (x : Nat) : Nat := (msbIndex x + 63) / 64 - 1

/-- The mask of the word drawn for limb t: the bits at or below the bound's top bit (spec/47_sample.md R89). -/
def topMask (x : Nat) : Word := BitVec.ofNat 64 (2 ^ (msbIndex x - 64 * topLimb x) - 1)

/-- The start of an attempt below the bound `x`: no limb drawn, every limb above t zero (spec/47_sample.md R89). -/
def Sampler.start (x : Nat) : Sampler where
  cand := Vector.replicate 8 0
  eq   := true
  left := topLimb x + 1

/-- Store a candidate limb; an index past the last limb stores nothing. -/
def setWord (ws : Vector Word 8) (i : Nat) (w : Word) : Vector Word 8 := if h : i < 8 then ws.set i w h else ws

/-- One turn of the loop of spec/47_sample.md R89: the word `w` is drawn for the next limb. An attempt that
exceeds the bound, or ends equal to it, is abandoned and the next one starts. -/
def Sampler.draw (x : Nat) (g : Sampler) (w : Word) : Sampler :=
  match g.left with
  | 0 => g
  | i + 1 =>
    let w := if i = topLimb x then w &&& topMask x else w
    if g.eq ∧ limbOf x i < w then Sampler.start x
    else
      let eq := g.eq && w == limbOf x i
      if i = 0 ∧ eq then Sampler.start x
      else { cand := setWord g.cand i w, eq := eq, left := i }

/-- The port's `rng_ready`: an SMP is in flight and needs its next word (spec/47_sample.md R88). -/
def rngReady (s : State) : Bool :=
  match s.pending with
  | some { cmd := .smp .., .. } => (s.sampler.map Sampler.left) != some 0
  | _ => false

/-- The unit's progress on an SMP in flight below the bound `p.a` (spec/47_sample.md R88, R89, R91). An accepted
candidate is written to `n` limbs and the command completes. Otherwise the next random word is taken, or, where
none is offered, the command is held and nothing changes. -/
def sampleProgress (rd : Reg) (n : Nat) (p : Latch) (s : State) : State :=
  let g := s.sampler.getD (Sampler.start p.a.toNat)
  if g.left = 0 then complete (writeWords rd n (wordAt g.cand) s)
  else match s.rngQueue with
    | [] => s
    | w :: ws =>
      { s with rngQueue := ws, rngCursor := s.rngCursor + 1, sampler := some (g.draw p.a.toNat w) }

/-- `SMP`: sample below the bound (spec/47_sample.md R89). -/
def execSmp (rd rs1 : Reg) (la : Len) (s : State) : Out :=
  command (.smp rd rs1 la) none checkBound (sampleProgress rd (limbs la)) s

end Sys2Proof.Machine
end

