-- ==== Sys2Proof/Machine/Shift.lean ====
section
/-! DEFINITION. The bit-shift engine: SHL and SHR (spec/43_shift.md). -/

namespace Sys2Proof.Machine

/-- `SHL`: A * 2^s modulo 2^(64 L) (spec/43_shift.md R73). -/
def execShl (rd rs1 : Reg) (shamt : BitVec 11) (la : Len) (s : State) : Out :=
  command (.shl rd rs1 shamt la) (checkShift shamt la) noCheck
    (fun p s => complete (wrL rd (limbs la) (p.a.toNat * 2 ^ shamt.toNat % 2 ^ (64 * limbs la)) s)) s

/-- `SHR`: A / 2^s, zeros entering at the top (spec/43_shift.md R74). -/
def execShr (rd rs1 : Reg) (shamt : BitVec 11) (la : Len) (s : State) : Out :=
  command (.shr rd rs1 shamt la) (checkShift shamt la) noCheck
    (fun p s => complete (wrL rd (limbs la) (p.a.toNat / 2 ^ shamt.toNat) s)) s

end Sys2Proof.Machine
end

