-- ==== Sys2Proof/Machine/Wrapper.lean ====
section
/-! DEFINITION. The constructors of the 512-bit integer: ZERO, LDW, LDB (spec/48_wrapper.md). -/

namespace Sys2Proof.Machine

/-- `ZERO vd`: all 8 limbs become 0 (spec/48_wrapper.md R93). -/
def execZero (rd : Reg) (s : State) : Out :=
  command (.zero rd) none noCheck (fun _ s => complete (wrL rd 8 0 s)) s

/-- `LDW vd`: DATA, zero-extended (spec/48_wrapper.md R94). -/
def execLdw (rd : Reg) (s : State) : Out :=
  command (.ldw rd) none noCheck (fun p s => complete (wrL rd 8 p.data.toNat s)) s

/-- `LDB vd`: the first BYTELEN bytes of BYTEBUF as a big-endian number (spec/48_wrapper.md R95). -/
def execLdb (rd : Reg) (s : State) : Out :=
  command (.ldb rd) (checkBytes s.bytelen) noCheck
    (fun p s => complete (wrL rd 8 (bytesValue p.bytebuf p.bytelen.toNat) s)) s

end Sys2Proof.Machine
end

