-- ==== Sys2Proof/Machine/Dispatch.lean ====
section
/-! DEFINITION. One arm for every command. On an idle unit `exec i` is the CMD write that offers `i`; with `i` in
flight it is the unit's progress on it (notes/assumptions/13.md). -/

namespace Sys2Proof.Machine

def exec (i : Instr) (s : State) : Host.Outcome State Fault Refusal :=
  match i with
  | .zero rd => Sys2Proof.Machine.execZero rd s
  | .ldw rd => Sys2Proof.Machine.execLdw rd s
  | .ldb rd => Sys2Proof.Machine.execLdb rd s
  | .add rd rs1 rs2 la lb => Sys2Proof.Machine.execAdd rd rs1 rs2 la lb s
  | .sub rd rs1 rs2 la lb => Sys2Proof.Machine.execSub rd rs1 rs2 la lb s
  | .cmp rs1 rs2 la lb => Sys2Proof.Machine.execCmp rs1 rs2 la lb s
  | .shl rd rs1 shamt la => Sys2Proof.Machine.execShl rd rs1 shamt la s
  | .shr rd rs1 shamt la => Sys2Proof.Machine.execShr rd rs1 shamt la s
  | .bitAnd rd rs1 rs2 la lb => Sys2Proof.Machine.execBitAnd rd rs1 rs2 la lb s
  | .bitOr rd rs1 rs2 la lb => Sys2Proof.Machine.execBitOr rd rs1 rs2 la lb s
  | .bitXor rd rs1 rs2 la lb => Sys2Proof.Machine.execBitXor rd rs1 rs2 la lb s
  | .bitNot rd rs1 la => Sys2Proof.Machine.execBitNot rd rs1 la s
  | .mul rd rs1 rs2 la lb => Sys2Proof.Machine.execMul rd rs1 rs2 la lb s
  | .mulf rd rd2 rs1 rs2 la lb => Sys2Proof.Machine.execMulf rd rd2 rs1 rs2 la lb s
  | .div rd rs1 rs2 la lb => Sys2Proof.Machine.execDiv rd rs1 rs2 la lb s
  | .rem rd rs1 rs2 la lb => Sys2Proof.Machine.execRem rd rs1 rs2 la lb s
  | .divr rd rd2 rs1 rs2 la lb => Sys2Proof.Machine.execDivr rd rd2 rs1 rs2 la lb s
  | .smp rd rs1 la => Sys2Proof.Machine.execSmp rd rs1 la s

end Sys2Proof.Machine
end

