-- ==== Sys2Proof/Machine/Bus.lean ====
section
/-! DEFINITION. The register window (spec/20_memory.md): the map, reads, writes, and the CMD write that offers a
command. -/

namespace Sys2Proof.Machine

/-- What an aligned offset of the window selects (spec/20_memory.md R40). -/
inductive WindowReg where
  | cmd | status | data | bytelen | fcmd | ctrl | param | reserved
  | bytebuf (j : Nat)
  | vwin (r : Reg) (i : Nat)
  deriving DecidableEq, Repr

/-- The map of spec/20_memory.md R40 by 8-byte slots: offset 0x040 is slot 8, 0x080 slot 16, 0x100 slot 32 and 0x300
slot 96. -/
def windowSlot (n : Nat) : WindowReg :=
  if n = 0 then .cmd
  else if n = 1 then .status
  else if n = 2 then .data
  else if n = 3 then .bytelen
  else if n = 4 then .fcmd
  else if n = 5 then .ctrl
  else if n = 6 then .param
  else if n = 7 then .reserved
  else if n < 16 then .bytebuf (n - 8)
  else if n < 32 then .reserved
  else if n < 96 then .vwin (Fin.ofNat 8 ((n - 32) / 8)) ((n - 32) % 8)
  else .reserved

/-- The register that an aligned offset selects (spec/20_memory.md R40). -/
def windowReg (offset : BitVec 10) : WindowReg := windowSlot (offset.toNat / 8)

/-- A naturally aligned 64-bit access (spec/20_memory.md R41.1, R46). -/
def conforming (offset : BitVec 10) (width : Nat) : Bool := width = 8 ∧ offset.toNat % 8 = 0

/-- The offset in the window that a bus address selects; none outside it (spec/20_memory.md R39, R49). -/
def windowOffset (addr : Nat) : Option (BitVec 10) :=
  if Config.base ≤ addr ∧ addr < Config.base + 0x400 then some (BitVec.ofNat 10 (addr - Config.base)) else none

/-- PARAM: W = 64, N = 8, NREG = 8, revision 1 (spec/10_state.md R30). -/
def paramWord : Word := 0x0000000001080840

/-- A host read of limb `i` of `V[r]` (spec/20_memory.md R42): an unspecified value, drawn afresh, while a command
is in flight or where the limb is UNDEF. -/
def readVwin (r : Reg) (i : Nat) (s : State) : State :=
  if s.busy then { s with rdata := Config.freeWord s.draws, draws := s.draws + 1 }
  else match s.limb r i with
    | .word w => { s with rdata := w }
    | .undef => { s with rdata := Config.freeWord s.draws, draws := s.draws + 1 }

/-- A host read (spec/20_memory.md R41, R42): the value goes to the bus's read data. -/
def busRead (offset : BitVec 10) (width : Nat) (s : State) : State :=
  if conforming offset width then
    match windowReg offset with
    | .cmd => { s with rdata := 0 }
    | .status => { s with rdata := statusWord s }
    | .data => { s with rdata := s.data }
    | .bytelen => { s with rdata := s.bytelen }
    | .fcmd => { s with rdata := s.fcmd }
    | .ctrl => { s with rdata := 0 }
    | .param => { s with rdata := paramWord }
    | .reserved => { s with rdata := 0 }
    | .bytebuf j => { s with rdata := wordAt s.bytebuf j }
    | .vwin r i => readVwin r i s
  else { s with rdata := 0 }

/-- The BUSY_WRITE fault (spec/60_exceptions.md R104, R105): the written value is discarded, the command in flight is
aborted, and FCMD takes the write's offset. -/
def busyWriteFault (offset : BitVec 10) (p : Latch) (s : State) : State :=
  takeFault .busyWrite (offset.setWidth 64) (destsOf p.cmd) (flagOf p.cmd) s

/-- A value offered to an idle unit by a CMD write (spec/60_exceptions.md R98.3): a command, or ILLEGAL_OPCODE, which
changes no limb and no flag, or RESERVED_FIELD (R102, R103). -/
def offerCommand (c : Word) (s : State) : Out :=
  match decode c with
  | .ok i => exec i s
  | .error .illegalOpcode => .next (takeFault .illegalOpcode c [] .noFlag s)
  | .error (.reservedField i) => .next (takeCommandFault .reservedField c i s)

/-- A write to a register that must not be written while a command is in flight (spec/20_memory.md R41.6). -/
def guardedWrite (offset : BitVec 10) (s : State) (write : Out) : Out :=
  match s.pending with
  | some p => .next (busyWriteFault offset p s)
  | none => write

/-- A host write (spec/20_memory.md R41, spec/60_exceptions.md R98). While FAULT = 1 only CTRL is written. -/
def busWrite (offset : BitVec 10) (width : Nat) (value : Word) (s : State) : Out :=
  if conforming offset width then
    match windowReg offset with
    | .ctrl => .next (if value.getLsbD 0 then unitReset s else s)
    | .cmd => if s.fault then .next s else guardedWrite offset s (offerCommand value s)
    | .data => if s.fault then .next s else guardedWrite offset s (.next { s with data := value })
    | .bytelen => if s.fault then .next s else guardedWrite offset s (.next { s with bytelen := value })
    | .bytebuf j =>
      if s.fault then .next s else guardedWrite offset s (.next { s with bytebuf := setWord s.bytebuf j value })
    | .status => .next s
    | .fcmd => .next s
    | .param => .next s
    | .reserved => .next s
    | .vwin _ _ => .next s
  else .next s

/-- The unit's own step: progress on the command in flight; idle otherwise (spec/60_exceptions.md R99, R113). -/
def unitProgress (s : State) : Out :=
  match s.pending with
  | none => .next s
  | some p => exec p.cmd s

/-- A bus access, which is not admitted while `rst` is high (spec/70_reset_and_hazards.md R114). -/
def busAccess (s : State) (access : Out) : Out := if s.rst then .refused .accessDuringReset else access

/-- What the next input does. -/
def react (e : Input) (s : State) : Out :=
  match e with
  | .tick => unitProgress s
  | .read offset width => busAccess s (.next (busRead offset width s))
  | .write offset width value => busAccess s (busWrite offset width value s)
  | .offer w => .next { s with rngQueue := s.rngQueue ++ [w] }
  | .rstHigh => .next { unitReset s with rst := true }
  | .rstLow => .next { s with rst := false }

/-- The input that offers a command: a 64-bit write to CMD. -/
def cmdWrite (c : Word) : Input := .write 0x000 8 c

end Sys2Proof.Machine
end

