-- ==== Sys2Proof/Machine/HostSide.lean ====
section
/-! DEFINITION. What the host's assembler and macros stand for (spec/30_encoding.md R64, R65): operand defaults, and
each macro as commands or as the list of bus accesses it makes. -/

namespace Sys2Proof.Machine

/-- An omitted `la` is 8 limbs (spec/30_encoding.md R64). -/
def defaultLa (la : Option Len) : Len := la.getD 7

/-- An omitted `lb` equals `la` (spec/30_encoding.md R64). -/
def defaultLb (la lb : Option Len) : Len := lb.getD (defaultLa la)

/-- A three-register command with the assembler's defaults, for example `asmRegs .add 2 0 1`. -/
def asmRegs (op : Reg → Reg → Reg → Len → Len → Instr) (vd vs1 vs2 : Reg) (la lb : Option Len := none) : Instr :=
  op vd vs1 vs2 (defaultLa la) (defaultLb la lb)

/-- A host write of a 64-bit register: `W(off, v)` (spec/30_encoding.md R65). -/
def hostWrite (offset : BitVec 10) (value : Word) : Input := .write offset 8 value

/-- A host read of a 64-bit register: `R(off)` (spec/30_encoding.md R65). -/
def hostRead (offset : BitVec 10) : Input := .read offset 8

/-- `MOV vd, vs, l` is `OR vd, vs, vs, l, l` (spec/30_encoding.md R65). -/
def macroMov (vd vs : Reg) (l : Option Len := none) : Instr := .bitOr vd vs vs (defaultLa l) (defaultLa l)

/-- `LI vd, imm64`: DATA, then LDW (spec/30_encoding.md R65). -/
def macroLi (vd : Reg) (imm : Word) : List Input := [hostWrite 0x010 imm, cmdWrite (cmdValue (.ldw vd))]

/-- Eight bytes of a sequence from index `8j` on, big-endian (spec/10_state.md R32). Where the sequence ends inside the
word, the spec does not say what the bytes past its end are: 0 is the model's DESIGN CHOICE (notes/assumptions/22.md). -/
def packWord (b : List Byte) (j : Nat) : Word :=
  BitVec.ofNat 64 ((List.range 8).foldl (fun acc m => acc * 256 + (b.getD (8 * j + m) 0).toNat) 0)

/-- What LBYTES writes to BYTELEN: the length (spec/30_encoding.md R65). A length that does not fit 64 bits must still
make LDB fault (spec/48_wrapper.md R96: "more than 64 bytes faults"); that the largest value stands for it is the model's
DESIGN CHOICE (notes/assumptions/21.md). -/
def lengthWord (n : Nat) : Word := BitVec.ofNat 64 (min n (2 ^ 64 - 1))

/-- `LBYTES vd, b`: the BYTEBUF words that hold a byte, BYTELEN, then LDB (spec/30_encoding.md R65). -/
def macroLbytes (vd : Reg) (b : List Byte) : List Input :=
  ((List.range 8).filter fun j => 8 * j < b.length).map
      (fun j => hostWrite (BitVec.ofNat 10 (0x040 + 8 * j)) (packWord b j)) ++
    [hostWrite 0x018 (lengthWord b.length), cmdWrite (cmdValue (.ldb vd))]

/-- `WAIT` with one poll of STATUS for each entry of `steps`, the unit making that many of its own steps before the poll
(spec/30_encoding.md R65). How many polls a host makes is its own choice from what it reads, and how far the unit gets
between two polls is open (spec/60_exceptions.md R99), so both are arguments. That a poll and the unit's steps stand in one
list, and that no offer or change of `rst` stands between them here, is the model's DESIGN CHOICE
(notes/assumptions/4.md). -/
def macroWait (steps : List Nat) : List Input :=
  steps.flatMap fun n => List.replicate n Input.tick ++ [hostRead 0x008]

/-- `ISSUE c`, then `WAIT` with these steps before its polls (spec/30_encoding.md R65). -/
def macroIssue (c : Word) (steps : List Nat) : List Input := cmdWrite c :: macroWait steps

/-! The wrapper's operators (spec/48_wrapper.md R96): each is one command at L = 8. -/

/-- `a + b`; the wrapper discards the carry. -/
def wrapperAdd (vd va vb : Reg) : Instr := .add vd va vb 7 7
/-- `a - b`; the wrapper discards the borrow. -/
def wrapperSub (vd va vb : Reg) : Instr := .sub vd va vb 7 7
/-- `a * b`, truncating. -/
def wrapperMul (vd va vb : Reg) : Instr := .mul vd va vb 7 7
/-- `a % b`. -/
def wrapperRem (vd va vb : Reg) : Instr := .rem vd va vb 7 7
/-- `a / b`. -/
def wrapperDiv (vd va vb : Reg) : Instr := .div vd va vb 7 7
/-- `a << k`; a `k` that does not fit SHAMT is the host's own precondition violation. -/
def wrapperShl (vd va : Reg) (k : Nat) : Option Instr :=
  if k < 2048 then some (.shl vd va (BitVec.ofNat 11 k) 7) else none
/-- The total order and equality. -/
def wrapperCompare (va vb : Reg) : Instr := .cmp va vb 7 7

end Sys2Proof.Machine
end

