-- ==== Sys2Proof/Machine/Step.lean ====
section
/-! DEFINITION. One step of the machine: the next input happens, or, with none listed, the unit makes progress by
itself (notes/assumptions/3.md). -/

namespace Sys2Proof.Machine

/-- One step. -/
def step (s : State) : Host.Outcome State Fault Refusal :=
  match s.inputs with
  | [] => unitProgress s
  | e :: rest => react e { s with inputs := rest }

/-- `s` with the value `w` (its bits from `nbits` up being 0) offered by the next input, a 64-bit CMD write, to a unit
that takes it: idle, not faulted and not held in reset (notes/assumptions/12.md). -/
def State.withFetchWord (s : State) (nbits w : Nat) : State :=
  { s with
    inputs := cmdWrite (BitVec.ofNat 64 (w % 2 ^ nbits)) :: s.inputs,
    pending := none, sampler := none, fault := false, rst := false }

end Sys2Proof.Machine
end

