-- ==== Sys2Proof/Safety.lean ====
section
/-! DEFINITION. What claims about CI512 are stated in: values of registers, a safe state, the frame of a command,
when a command runs to completion, the check that fails first, and the invariant of every reachable state. -/

namespace Sys2Proof.Machine

/-- The number in the low `n` limbs of a register where all of them are defined (spec/00_scope.md R11, R12). -/
def definedValue (row : Vector Limb 8) : Nat → Option Nat
  | 0 => some 0
  | n + 1 =>
    match definedValue row n, limbAt row n with
    | some x, .word w => some (x + w.toNat * 2 ^ (64 * n))
    | _, _ => none

/-- The number in the low `n` limbs of `V[r]`, none where one of them is UNDEF. -/
def State.value (s : State) (r : Reg) (n : Nat) : Option Nat := definedValue s.v[r] n

/-- The number that the low `n` of eight words form (spec/00_scope.md R11). -/
def wordsValue (ws : Vector Word 8) : Nat → Nat
  | 0 => 0
  | n + 1 => wordsValue ws n + (wordAt ws n).toNat * 2 ^ (64 * n)

/-- The premise of every claim: no fault and no recorded model fault (spec/60_exceptions.md R107). -/
abbrev State.Safe (s : State) : Prop := s.fault = false ∧ s.readUndef = false

/-- An idle unit that accepts commands (spec/60_exceptions.md R98). -/
abbrev State.Ready (s : State) : Prop := s.fault = false ∧ s.pending = none

/-- The operand A as the command reads it: an UNDEF limb is a free value (spec/30_encoding.md R58). -/
def operandA (s : State) (rs1 : Reg) (la : Len) : Nat := rdL s.v[rs1] s.draws (limbs la)

/-- The operand B as the command reads it: an UNDEF limb is a free value (spec/30_encoding.md R58). -/
def operandB (s : State) (rs2 : Reg) (lb : Len) : Nat := rdL s.v[rs2] (s.draws + 8) (limbs lb)

/-- `u` has what `s` has in every register and port that a command with the destinations `dests` and the flag `f`
does not write: the other limbs, the other flag, FAULT, FCAUSE, FCMD, DATA, BYTELEN, BYTEBUF, and the bus and reset
ports. The latch, the sampler, the random source and the model's own counters are not spoken of. -/
structure Frame (dests : List (Reg × Nat)) (f : FlagName) (s u : State) : Prop where
  limb : ∀ r i, (∀ d ∈ dests, d.1 = r → d.2 ≤ i) → u.limb r i = s.limb r i
  c : f ≠ .carry → u.c = s.c
  cmpr : f ≠ .comparison → u.cmpr = s.cmpr
  fault : u.fault = s.fault
  fcause : u.fcause = s.fcause
  fcmd : u.fcmd = s.fcmd
  data : u.data = s.data
  bytelen : u.bytelen = s.bytelen
  bytebuf : u.bytebuf = s.bytebuf
  rst : u.rst = s.rst
  rdata : u.rdata = s.rdata
  inputs : u.inputs = s.inputs

/-- The random source stands where it stood. -/
abbrev SameRandom (s u : State) : Prop := u.rngQueue = s.rngQueue ∧ u.rngCursor = s.rngCursor

/-- Offered to the unit in `s` the command is accepted, changing nothing outside the frame of its own destinations
(and those too stay as they are), and its completion gives `u`, idle again (spec/60_exceptions.md R98, R99). -/
def Completes (i : Instr) (s u : State) : Prop :=
  ∃ t, exec i s = .next t ∧ t.busy = true ∧ Frame [] .noFlag s t ∧ SameRandom s t ∧ exec i t = .next u ∧ u.busy = false

/-- Offered to the unit in `s` the command takes the fault `k`, giving `t` (spec/60_exceptions.md R103): FAULT, FCAUSE
and FCMD are set, BUSY is 0, its destination limbs are UNDEF, and outside its destinations and its flag nothing else
changes. -/
structure FaultEntry (k : Cause) (c : Word) (dests : List (Reg × Nat)) (f : FlagName) (s t : State) : Prop where
  fault : t.fault = true
  fcause : t.fcause = k.code
  fcmd : t.fcmd = c
  idle : t.pending = none ∧ t.sampler = none
  undef : ∀ d ∈ dests, ∀ i < d.2, t.limb d.1 i = .undef
  limb : ∀ r i, (∀ d ∈ dests, d.1 = r → d.2 ≤ i) → t.limb r i = s.limb r i
  c : f ≠ .carry → t.c = s.c
  cmpr : f ≠ .comparison → t.cmpr = s.cmpr
  data : t.data = s.data
  bytelen : t.bytelen = s.bytelen
  bytebuf : t.bytebuf = s.bytebuf
  ports : t.rst = s.rst ∧ t.rdata = s.rdata ∧ t.inputs = s.inputs
  random : SameRandom s t

/-- Offered to the unit in `s`, the command takes the fault `k`. -/
def Faults (k : Cause) (i : Instr) (s : State) : Prop :=
  ∃ t, exec i s = .next t ∧ FaultEntry k (cmdValue i) (destsOf i) (flagOf i) s t

/-- The encoding faults of an opcode on the unit in `s`: a value with its OPC and a high half that is not 0 takes
ILLEGAL_OPCODE, one with a reserved field that is not 0 takes RESERVED_FIELD (spec/30_encoding.md R60, R61). -/
def EncodingFaults (op : Opcode) (s : State) : Prop :=
  ∀ c : Word, c.extractLsb' 0 6 = op.bits →
    (c.extractLsb' 32 32 ≠ 0 →
      ∃ t, offerCommand c s = .next t ∧ FaultEntry .illegalOpcode c [] .noFlag s t) ∧
    (c.extractLsb' 32 32 = 0 → c.extractLsb' 0 32 &&& op.mask ≠ op.matchBits →
      ∃ t, offerCommand c s = .next t ∧
        FaultEntry .reservedField c (destsOf (operandsOf op (c.extractLsb' 0 32)))
          (flagOf (operandsOf op (c.extractLsb' 0 32))) s t)

/-- The condition under which spec/60_exceptions.md R101 gives a decoded command the cause `k`. -/
def causeHolds (s : State) (i : Instr) (k : Cause) : Bool :=
  match k with
  | .destConflict =>
    match i with
    | .mulf rd rd2 _ _ _ _ => rd = rd2
    | .divr rd rd2 _ _ _ _ => rd = rd2
    | _ => false
  | .lengthMismatch =>
    match i with
    | .add _ _ _ la lb => limbs la < limbs lb
    | .sub _ _ _ la lb => limbs la ≠ limbs lb
    | .cmp _ _ la lb => limbs la ≠ limbs lb
    | .bitAnd _ _ _ la lb => limbs la ≠ limbs lb
    | .bitOr _ _ _ la lb => limbs la ≠ limbs lb
    | .bitXor _ _ _ la lb => limbs la ≠ limbs lb
    | .mul _ _ _ la lb => limbs la ≠ limbs lb
    | .mulf _ _ _ _ la lb => limbs la ≠ limbs lb
    | .div _ _ _ la lb => limbs la ≠ limbs lb
    | .rem _ _ _ la lb => limbs la ≠ limbs lb
    | .divr _ _ _ _ la lb => limbs la ≠ limbs lb
    | _ => false
  | .lengthNotPow2 =>
    match i with
    | .mul _ _ _ la lb => limbs la = limbs lb ∧ limbs la ∉ [1, 2, 4, 8]
    | .mulf _ _ _ _ la lb => limbs la = limbs lb ∧ limbs la ∉ [1, 2, 4, 8]
    | _ => false
  | .shiftRange =>
    match i with
    | .shl _ _ shamt la => 64 * limbs la ≤ shamt.toNat
    | .shr _ _ shamt la => 64 * limbs la ≤ shamt.toNat
    | _ => false
  | .bytesOversize =>
    match i with
    | .ldb _ => 64 < s.bytelen.toNat
    | _ => false
  | .divZero =>
    match i with
    | .div _ _ rs2 _ lb => operandB s rs2 lb = 0
    | .rem _ _ rs2 _ lb => operandB s rs2 lb = 0
    | .divr _ _ _ rs2 _ lb => operandB s rs2 lb = 0
    | _ => false
  | .zeroBound =>
    match i with
    | .smp _ rs1 la => operandA s rs1 la = 0
    | _ => false
  | .illegalOpcode => false
  | .reservedField => false
  | .busyWrite => false

/-- The first failing check of a decoded command, in the order of spec/60_exceptions.md R102. -/
def firstCause (s : State) (i : Instr) : Option Cause :=
  [Cause.destConflict, .lengthMismatch, .lengthNotPow2, .shiftRange, .bytesOversize, .divZero, .zeroBound].find?
    (causeHolds s i)

/-- Every piece of the unit's state has its reset value (spec/10_state.md R37, spec/70_reset_and_hazards.md R114). -/
structure ResetValues (t : State) : Prop where
  limb : ∀ r i, t.limb r i = .undef
  busy : t.busy = false
  fault : t.fault = false
  c : t.c = false
  cmpr : t.cmpr = .noResult
  fcause : t.fcause = 0
  fcmd : t.fcmd = 0
  data : t.data = 0
  bytelen : t.bytelen = 0
  bytebuf : ∀ j, wordAt t.bytebuf j = 0
  latch : t.pending = none
  progress : t.sampler = none

/-- The next input resets the unit: a conforming write to CTRL with bit 0 = 1, or `rst` sampled high
(spec/70_reset_and_hazards.md R114). -/
def resetsNext (s : State) : Bool :=
  match s.inputs with
  | .write offset width value :: _ => offset = 0x028 ∧ width = 8 ∧ value.getLsbD 0 = true
  | .rstHigh :: _ => true
  | _ => false

/-- The next input is a CMD write whose value has the operand fields of `i`, well-encoded or with a reserved field
that is not 0 (spec/60_exceptions.md R103 takes the fields as written). -/
def offersNext (s : State) (i : Instr) : Prop :=
  ∃ c rest, s.inputs = cmdWrite c :: rest ∧ (decode c = .ok i ∨ decode c = .error (.reservedField i))

/-- The ways in which the step from `s` to `t` may change something that the command `i` writes, for an `i` that `who`
holds of: `i` is in flight, `i` is offered and takes a fault, or the unit is reset (spec/10_state.md R20, R24, R25). -/
def WrittenBy (who : Instr → Prop) (s t : State) : Prop :=
  resetsNext s = true ∨ (∃ p, s.pending = some p ∧ who p.cmd) ∨ (∃ i, offersNext s i ∧ who i ∧ t.fault = true)

/-- The outcome of one attempt of spec/47_sample.md R89 on a list of random words. -/
inductive Attempt where
  /-- The candidate is abandoned; these words are left. -/
  | retry (rest : List Word)
  /-- The candidate is accepted; these words are left. -/
  | accepted (cand : Vector Word 8) (rest : List Word)
  /-- The words ran out. -/
  | starved
  deriving DecidableEq, Repr

/-- The loop body of spec/47_sample.md R89 for the bound `x`, its top needed limb `top` and the mask of that limb, with
`k` limbs still to draw, `eq` and the candidate so far. -/
def attempt (x top : Nat) (mask : Word) : Nat → Bool → Vector Word 8 → List Word → Attempt
  | 0, eq, cand, ws => if eq then .retry ws else .accepted cand ws
  | _ + 1, _, _, [] => .starved
  | i + 1, eq, cand, w :: ws =>
    let w' := if i = top then w &&& mask else w
    if eq = true ∧ limbOf x i < w' then .retry ws
    else attempt x top mask i (eq && w' == limbOf x i) (setWord cand i w') ws

/-- At most `n` attempts of spec/47_sample.md R89: the accepted candidate and the words left, if one is reached. The
statements compute `top` and `mask` from the bound; the machine's own are not used here. -/
def sampleBelow (x top : Nat) (mask : Word) : Nat → List Word → Option (Vector Word 8 × List Word)
  | 0, _ => none
  | n + 1, ws =>
    match attempt x top mask (top + 1) true (Vector.replicate 8 0) ws with
    | .retry rest => sampleBelow x top mask n rest
    | .accepted cand rest => some (cand, rest)
    | .starved => none

/-- What spec/44_bitwise.md R76 to R78 say of a two-operand bitwise command `op` with the opcode `o` and the lane
function `f`. -/
def LaneResult (o : Opcode) (op : Reg → Reg → Reg → Len → Len → Instr) (f : Word → Word → Word) : Prop :=
  ∀ rd rs1 rs2 la lb (s : State), s.Ready →
    encode (op rd rs1 rs2 la lb) = formatR o rd rs1 rs2 0 la lb ∧ EncodingFaults o s ∧
    (limbs la ≠ limbs lb → Faults .lengthMismatch (op rd rs1 rs2 la lb) s) ∧
    (limbs la = limbs lb → ∃ u, Completes (op rd rs1 rs2 la lb) s u ∧
      (∀ j < limbs la, u.limb rd j =
        .word (f (readLimb (s.limb rs1 j) (s.draws + j)) (readLimb (s.limb rs2 j) (s.draws + 8 + j)))) ∧
      Frame [(rd, limbs la)] .noFlag s u ∧ SameRandom s u)

/-- What the checks leave true of a latched command (spec/60_exceptions.md R102: "A command that passes all checks
never faults later"). -/
structure Latch.Accepted (p : Latch) : Prop where
  legal : p.cmd.WellFormed
  bytes : p.cmd.opcode = .ldb → p.bytelen.toNat ≤ 64
  divisor : p.cmd.opcode ∈ [Opcode.div, .rem, .divr] → p.b ≠ 0
  bound : p.cmd.opcode = .smp → p.a ≠ 0
  widthA : ∀ r n, sourceA p.cmd = some (r, n) → p.a.toNat < 2 ^ (64 * n)
  widthB : ∀ r n, sourceB p.cmd = some (r, n) → p.b.toNat < 2 ^ (64 * n)

/-- What the loop of spec/47_sample.md R89 keeps of a candidate below the bound `x`. -/
structure Sampler.Ok (x : Nat) (g : Sampler) : Prop where
  left : g.left ≤ topLimb x + 1
  high : ∀ i, topLimb x < i → wordAt g.cand i = 0
  tied : g.eq = true → 0 < g.left ∧ ∀ i, g.left ≤ i → wordAt g.cand i = limbOf x i
  below : g.eq = false →
    ∃ j, g.left ≤ j ∧ wordAt g.cand j < limbOf x j ∧ ∀ i, j < i → wordAt g.cand i = limbOf x i

/-- The invariant of the unit, which every step keeps. -/
structure State.Inv (s : State) : Prop where
  cause : s.fault = true ↔ s.fcause ≠ 0
  legalCause : s.fcause.toNat ≤ 10
  record : s.fault = false → s.fcmd = 0
  halted : s.fault = true → s.pending = none
  held : s.rst = true → ResetValues s
  sampling : s.sampler ≠ none → ∃ p, s.pending = some p ∧ p.cmd.opcode = .smp
  accepted : ∀ p, s.pending = some p → p.Accepted
  sampler : ∀ p g, s.pending = some p → s.sampler = some g → g.Ok p.a.toNat

end Sys2Proof.Machine
end

