-- ==== Sys2Proof/Certificates/Slice0/Obligations.lean ====
section
/-! DEFINITION. The statements about CI512 that the provers are asked for. Each says which rule of spec/ it formalises.
A value read from an UNDEF limb is a free value here (notes/assumptions/1.md, 2.md), and no statement rests on it. -/

open Sys2Proof Sys2Proof.Machine

/-! ### Decoding and encoding (spec/30_encoding.md) -/

/-- Every command word decodes to the command it was written from (R56, R57, R60). -/
def Obligations.DecodeOfEncodeIsTheCommand : Prop := ∀ i : Instr, decode (cmdValue i) = .ok i

/-- Every legal CMD value is the one its command is written with (D11: "makes every legal command word unique"). -/
def Obligations.LegalCommandValuesAreUnique : Prop :=
  ∀ (c : BitVec 64) (i : Instr), decode c = .ok i → cmdValue i = c

/-- R63, steps 0 to 3: the high half, the full match, the OPC match and no match. -/
def Obligations.DecodingFollowsTheTable : Prop :=
  ∀ c : BitVec 64,
    let w := c.extractLsb' 0 32
    (c.extractLsb' 32 32 ≠ 0 → decode c = .error .illegalOpcode) ∧
    (c.extractLsb' 32 32 = 0 →
      (∀ op : Opcode, w &&& op.mask = op.matchBits → decode c = .ok (operandsOf op w)) ∧
      (∀ op : Opcode, w.extractLsb' 0 6 = op.bits → w &&& op.mask ≠ op.matchBits →
        decode c = .error (.reservedField (operandsOf op w))) ∧
      ((∀ op : Opcode, w.extractLsb' 0 6 ≠ op.bits) → decode c = .error .illegalOpcode))

/-- R61: which OPC values are unassigned. -/
def Obligations.UnassignedOpcodesAreListed : Prop :=
  ∀ b : BitVec 6, Opcode.ofBits b = none ↔
    b.toNat = 0x00 ∨ (0x04 ≤ b.toNat ∧ b.toNat ≤ 0x07) ∨ b.toNat = 0x0A ∨ b.toNat = 0x0B ∨
    (0x0D ≤ b.toNat ∧ b.toNat ≤ 0x0F) ∨ b.toNat = 0x12 ∨ b.toNat = 0x13 ∨ b.toNat = 0x1A ∨ b.toNat = 0x1B ∨
    b.toNat = 0x1F ∨ 0x21 ≤ b.toNat

/-- The example words of R64 and R65 decode to the commands they stand for. -/
def Obligations.ExampleWordsDecode : Prop :=
  decode 0x00FC1088 = .ok (asmRegs .add 2 0 1) ∧ decode 0x091C0050 = .ok (.shl 1 0 72 7) ∧
  decode 0x00019099 = .ok (.mulf 2 3 0 1 0 0) ∧ decode 0x00FC1215 = .ok (macroMov 0 1) ∧
  decode 0 = .error .illegalOpcode

/-! ### The step -/

/-- With rst low, a step whose next input is a host access is that access, at its offset and width, on the state with the
input taken off (spec/20_memory.md R50); and a CMD write to an idle unit runs the command that the value decodes to
(spec/60_exceptions.md R98.3). -/
def Obligations.StepRunsTheOfferedCommand : Prop :=
  ∀ (s : State) (rest : List Input), s.rst = false →
    (∀ offset width, s.inputs = .read offset width :: rest →
      step s = .next (busRead offset width { s with inputs := rest })) ∧
    (∀ offset width value, s.inputs = .write offset width value :: rest →
      step s = busWrite offset width value { s with inputs := rest }) ∧
    (∀ (c : Word) (i : Instr), s.inputs = cmdWrite c :: rest → s.Ready → decode c = .ok i →
      step s = exec i { s with inputs := rest })

/-- The unit's own step runs the command in flight (spec/60_exceptions.md R99). That it advances by itself when no input
is listed is the model's choice (notes/assumptions/3.md). -/
def Obligations.StepAdvancesTheCommandInFlight : Prop :=
  ∀ (s : State) (p : Latch), s.pending = some p →
    (s.inputs = [] → step s = exec p.cmd s) ∧
    (∀ rest, s.inputs = .tick :: rest → step s = exec p.cmd { s with inputs := rest })

/-- No step ends in a fault of the model, and a step is refused exactly where the next input is a bus access while `rst`
is high (spec/70_reset_and_hazards.md R114, spec/93_implementation_defined.md U9; the refusal is notes/assumptions/7.md). -/
def Obligations.OnlyAccessDuringResetStops : Prop :=
  ∀ s : State,
    ((∃ t, step s = .next t) ∨
      (s.rst = true ∧ step s = .refused .accessDuringReset ∧ ∃ offset width rest,
        s.inputs = .read offset width :: rest ∨ ∃ value, s.inputs = .write offset width value :: rest)) ∧
    (∀ offset width rest, s.rst = true →
      (s.inputs = .read offset width :: rest ∨ ∃ value, s.inputs = .write offset width value :: rest) →
      step s = .refused .accessDuringReset)

/-- The invariant holds after reset. -/
def Obligations.InvariantHoldsAtReset : Prop := State.reset.Inv

/-- Every step keeps the invariant: FAULT and FCAUSE agree and FCAUSE is at most 10 (spec/10_state.md R26), FCMD is 0
before a fault (R28), a faulted unit has no command in flight (R22), the unit held in reset stays in the reset state
(spec/70_reset_and_hazards.md R114), the sampler's progress exists only with an SMP in flight (R36), a latched command
passed every check (spec/60_exceptions.md R102), and the candidate fits the loop of spec/47_sample.md R89. -/
def Obligations.StepKeepsTheInvariant : Prop :=
  ∀ s t : State, s.Inv → step s = .next t → t.Inv

/-! ### Checks and faults (spec/60_exceptions.md) -/

/-- R102: an offered value takes the fault of its first failing check, one that fails none is accepted, and an accepted
command never faults later. Where an operand value is read from an UNDEF limb it is a free value. -/
def Obligations.FirstFailingCheckIsReported : Prop :=
  (∀ (c : Word) (s : State), s.Ready → ∃ t, offerCommand c s = .next t ∧
    match decode c with
    | .error .illegalOpcode => FaultEntry .illegalOpcode c [] .noFlag s t
    | .error (.reservedField i) => FaultEntry .reservedField c (destsOf i) (flagOf i) s t
    | .ok i =>
      match firstCause s i with
      | none => t.pending = some (latchOf i s) ∧ Frame [] .noFlag s t ∧ SameRandom s t
      | some k => FaultEntry k c (destsOf i) (flagOf i) s t) ∧
  (∀ (i : Instr) (s t : State), s.fault = false → s.busy = true → exec i s = .next t → t.fault = false)

/-- The model's choice (notes/assumptions/1.md): ReadUndef is recorded where the checks 1 to 7 pass and an UNDEF limb is
read, and the command goes on with free values. -/
def Obligations.UndefinedReadsAreRecorded : Prop :=
  ∀ (i : Instr) (s : State), s.Ready → ∃ t, exec i s = .next t ∧
    t.readUndef = (s.readUndef || (readsUndef i s && match firstCause s i with
      | none => true
      | some k => decide (k = .divZero ∨ k = .zeroBound)))

/-- spec/10_state.md R19, R20, R35, R107: on a safe, idle unit a command that passes its checks and whose source limbs are
all defined leaves the unit safe, and its latch holds exactly the operand values read at issue. -/
def Obligations.DefinedOperandsAreLatchedExactly : Prop :=
  ∀ (i : Instr) (s : State), s.Safe → s.pending = none → firstCause s i = none →
    (∀ r n, sourceA i = some (r, n) → (s.value r n).isSome) →
    (∀ r n, sourceB i = some (r, n) → (s.value r n).isSome) →
    ∃ t p, exec i s = .next t ∧ t.Safe ∧ t.pending = some p ∧ p.cmd = i ∧
      (∀ r n, sourceA i = some (r, n) → s.value r n = some p.a.toNat) ∧
      (∀ r n, sourceB i = some (r, n) → s.value r n = some p.b.toNat) ∧
      p.data = s.data ∧ p.bytelen = s.bytelen ∧ p.bytebuf = s.bytebuf

/-- R103: what taking a fault does, for any cause, FCMD value, destinations and flag. -/
def Obligations.TakingAFaultIsTheEntry : Prop :=
  ∀ (k : Cause) (c : Word) (ds : List (Reg × Nat)) (f : FlagName) (s : State), (∀ d ∈ ds, d.2 ≤ 8) →
    FaultEntry k c ds f s (takeFault k c ds f s)

/-- R104: a conforming write to CMD, DATA, BYTELEN or BYTEBUF with a command in flight takes BUSY_WRITE, whatever
the written value, and aborts the command; a write to CTRL is a reset instead. -/
def Obligations.BusyWriteAbortsTheCommand : Prop :=
  ∀ (s : State) (p : Latch) (offset : BitVec 10) (value : Word) (rest : List Input),
    s.inputs = .write offset 8 value :: rest → s.rst = false → s.fault = false → s.pending = some p →
    (offset = 0x000 ∨ offset = 0x010 ∨ offset = 0x018 ∨ (0x040 ≤ offset.toNat ∧ offset.toNat < 0x080 ∧ offset.toNat % 8 = 0) →
      ∃ t, step s = .next t ∧
        FaultEntry .busyWrite (offset.setWidth 64) (destsOf p.cmd) (flagOf p.cmd) { s with inputs := rest } t) ∧
    (offset = 0x028 → value.getLsbD 0 = true → step s = .next (unitReset { s with inputs := rest }))

/-- spec/10_state.md R23, R106: a faulted unit keeps everything until a reset. -/
def Obligations.FaultedUnitIsHaltedUntilReset : Prop :=
  ∀ s t : State, s.fault = true → resetsNext s = false → step s = .next t →
    t.v = s.v ∧ t.fault = true ∧ t.c = s.c ∧ t.cmpr = s.cmpr ∧ t.fcause = s.fcause ∧ t.fcmd = s.fcmd ∧
    t.data = s.data ∧ t.bytelen = s.bytelen ∧ t.bytebuf = s.bytebuf ∧ t.pending = s.pending ∧ t.sampler = s.sampler ∧
    t.rngCursor = s.rngCursor

/-! ### Reset (spec/70_reset_and_hazards.md) -/

/-- The unit's state after reset, and the STATUS word then (spec/10_state.md R37). -/
def Obligations.ResetStateHasTheResetValues : Prop := ResetValues State.reset ∧ statusWord State.reset = 0x18

/-- R114: a CTRL write with bit 0 = 1 and `rst` sampled high reset the unit in any state and leave the random source
where it stood, and the unit stays in reset while `rst` is high; R34: a CTRL write with bit 0 = 0 has no effect, and CTRL
reads as 0. -/
def Obligations.ResetFromAnyState : Prop :=
  ∀ (s : State) (rest : List Input),
    (∀ value : Word, s.inputs = .write 0x028 8 value :: rest → s.rst = false →
      (value.getLsbD 0 = true → ∃ t, step s = .next t ∧ ResetValues t ∧ rngReady t = false ∧ SameRandom s t ∧
        t.inputs = rest ∧ t.rst = false) ∧
      (value.getLsbD 0 = false → step s = .next { s with inputs := rest })) ∧
    (s.inputs = .rstHigh :: rest →
      ∃ t, step s = .next t ∧ ResetValues t ∧ rngReady t = false ∧ SameRandom s t ∧ t.inputs = rest ∧ t.rst = true) ∧
    (∀ t, s.rst = true → ResetValues s → step s = .next t → ResetValues t ∧ t.rngCursor = s.rngCursor) ∧
    busRead 0x028 8 s = { s with rdata := 0 }

/-! ### The register window (spec/20_memory.md, spec/10_state.md) -/

/-- R41: the rules for every host access to the unit out of reset. -/
def Obligations.WindowAccessRules : Prop :=
  ∀ (offset : BitVec 10) (width : Nat) (value : Word) (s : State),
    let n := offset.toNat
    (width ≠ 8 ∨ n % 8 ≠ 0 → busWrite offset width value s = .next s ∧ busRead offset width s = { s with rdata := 0 }) ∧
    (n % 8 = 0 →
      (n = 0x008 ∨ n = 0x020 ∨ n = 0x030 ∨ n = 0x038 ∨ (0x080 ≤ n ∧ n < 0x400) →
        busWrite offset 8 value s = .next s) ∧
      (n = 0x000 ∨ n = 0x028 ∨ n = 0x038 ∨ (0x080 ≤ n ∧ n < 0x100) ∨ (0x300 ≤ n ∧ n < 0x400) →
        busRead offset 8 s = { s with rdata := 0 }) ∧
      (s.fault = true → n ≠ 0x028 → busWrite offset 8 value s = .next s) ∧
      (∀ p, s.fault = false → s.pending = some p →
        n = 0x000 ∨ n = 0x010 ∨ n = 0x018 ∨ (0x040 ≤ n ∧ n < 0x080) →
        ∃ t, busWrite offset 8 value s = .next t ∧
          FaultEntry .busyWrite (offset.setWidth 64) (destsOf p.cmd) (flagOf p.cmd) s t))

/-- R47: a read changes nothing but the bus's read data and, in the model, the counter of free values
(notes/assumptions/2.md, 6.md). -/
def Obligations.ReadsHaveNoSideEffect : Prop :=
  ∀ (offset : BitVec 10) (width : Nat) (s : State),
    { busRead offset width s with rdata := s.rdata, draws := s.draws } = s

/-- R21: where each field stands in the STATUS word that a read returns, and its reset value; writes are ignored. -/
def Obligations.StatusReadsItsFields : Prop :=
  ∀ s : State,
    let w := (busRead 0x008 8 s).rdata
    w.getLsbD 0 = s.pending.isSome ∧ w.getLsbD 1 = s.fault ∧ w.getLsbD 2 = s.c ∧
    w.extractLsb' 3 2 = (match s.cmpr with | .equal => 0b00#2 | .less => 0b01#2 | .greater => 0b10#2 | .noResult => 0b11#2) ∧
    w.extractLsb' 5 3 = 0 ∧ w.extractLsb' 8 4 = s.fcause ∧ w.extractLsb' 12 52 = 0 ∧
    (∀ value, busWrite 0x008 8 value s = .next s) ∧ (busRead 0x008 8 State.reset).rdata = 0b11000

/-- R30: PARAM reads as its constant in every state that admits an access. -/
def Obligations.ParamReadsItsConstant : Prop :=
  ∀ (s : State) (rest : List Input), s.inputs = .read 0x030 8 :: rest → s.rst = false →
    step s = .next { s with inputs := rest, rdata := 0x0000000001080840 }

/-- R22, R28, R29, R31, R32: in every state, busy or faulted too, a read of FCMD, DATA, BYTELEN, BYTEBUF[j] or PARAM
returns the register's value; the host reads back what it wrote to DATA, BYTELEN or BYTEBUF[j] in an idle unit; and no
command writes any of these. -/
def Obligations.HostRegistersReadBack : Prop :=
  (∀ s : State,
    busRead 0x020 8 s = { s with rdata := s.fcmd } ∧ busRead 0x010 8 s = { s with rdata := s.data } ∧
    busRead 0x018 8 s = { s with rdata := s.bytelen } ∧ busRead 0x030 8 s = { s with rdata := 0x0000000001080840 } ∧
    (∀ (offset : BitVec 10) (j : Nat), j < 8 → offset.toNat = 0x040 + 8 * j →
      busRead offset 8 s = { s with rdata := wordAt s.bytebuf j })) ∧
  (∀ (s : State) (value : Word) (offset : BitVec 10), s.Ready →
    offset = 0x010 ∨ offset = 0x018 ∨ (0x040 ≤ offset.toNat ∧ offset.toNat < 0x080 ∧ offset.toNat % 8 = 0) →
    ∃ t, busWrite offset 8 value s = .next t ∧ (busRead offset 8 t).rdata = value ∧
      (offset ≠ 0x010 → t.data = s.data) ∧ (offset ≠ 0x018 → t.bytelen = s.bytelen) ∧
      (∀ j < 8, offset.toNat ≠ 0x040 + 8 * j → wordAt t.bytebuf j = wordAt s.bytebuf j) ∧
      t.v = s.v ∧ t.c = s.c ∧ t.cmpr = s.cmpr ∧ t.fault = s.fault ∧ t.pending = s.pending) ∧
  (∀ (i : Instr) (s t : State), exec i s = .next t → t.data = s.data ∧ t.bytelen = s.bytelen ∧ t.bytebuf = s.bytebuf)

/-- R42: a conforming read of VWIN[r][i], and a write to it. -/
def Obligations.VwinReadsTheLimb : Prop :=
  ∀ (s : State) (r i : Fin 8) (offset : BitVec 10), offset.toNat = 0x100 + 0x40 * r.val + 8 * i.val →
    (s.busy = false → ∀ w, s.limb r i.val = .word w → busRead offset 8 s = { s with rdata := w }) ∧
    (s.busy = true ∨ s.limb r i.val = .undef →
      busRead offset 8 s = { s with rdata := Config.freeWord s.draws, draws := s.draws + 1 }) ∧
    (∀ value, busWrite offset 8 value s = .next s)

/-- R39: the window is the 0x400 bytes from BASE, a multiple of 0x400, and an offset is a distance from BASE. -/
def Obligations.WindowIsOneKiloByteAtBase : Prop :=
  Config.base % 0x400 = 0 ∧ (∀ offset : BitVec 10, windowOffset (Config.base + offset.toNat) = some offset) ∧
  (∀ addr, addr < Config.base ∨ Config.base + 0x400 ≤ addr → windowOffset addr = none)

/-! ### What may change what -/

/-- spec/10_state.md R20: a limb changes only as a destination of a command in flight or of a command that takes a
fault as it is offered, or by a reset. -/
def Obligations.LimbsChangeOnlyAsDestinations : Prop :=
  ∀ (s t : State) (r : Reg) (j : Nat), step s = .next t → t.limb r j ≠ s.limb r j →
    WrittenBy (fun i => ∃ d ∈ destsOf i, d.1 = r ∧ j < d.2) s t

/-- spec/10_state.md R19, R20, spec/48_wrapper.md R92: a command that completes leaves every limb of its destinations
defined, so that a register written over 8 limbs holds a 512-bit value. -/
def Obligations.CompletionDefinesTheDestinations : Prop :=
  ∀ (i : Instr) (s t : State), s.fault = false → s.busy = true → exec i s = .next t → t.busy = false →
    ∀ d ∈ destsOf i, (∀ j < d.2, ∃ w, t.limb d.1 j = .word w) ∧ (t.value d.1 d.2).isSome

/-- spec/10_state.md R24, R25: STATUS.C changes only by ADD and SUB, STATUS.CMPR only by CMP, or by a reset. -/
def Obligations.FlagsChangeOnlyByTheirCommands : Prop :=
  ∀ s t : State, step s = .next t →
    (t.c ≠ s.c → WrittenBy (fun i => i.opcode = .add ∨ i.opcode = .sub) s t) ∧
    (t.cmpr ≠ s.cmpr → WrittenBy (fun i => i.opcode = .cmp) s t)

/-- spec/47_sample.md R88: a random word is taken only by an SMP in flight that needs its next word, one a step, the
oldest offered; the unit never rewinds the source. Where none is taken the words offered stay as they are, and a word that
the source offers goes to their end. -/
def Obligations.RandomWordsAreTakenOnlyBySmp : Prop :=
  ∀ s t : State, step s = .next t →
    (t.rngCursor = s.rngCursor ∧ t.rngQueue = match s.inputs with
      | .offer w :: _ => s.rngQueue ++ [w]
      | _ => s.rngQueue) ∨
    (t.rngCursor = s.rngCursor + 1 ∧ rngReady s = true ∧ ∃ w, s.rngQueue = w :: t.rngQueue)

/-- spec/10_state.md R35: what a host reads while a command is in flight does not change what the command does. -/
def Obligations.ReadsDoNotDisturbTheCommandInFlight : Prop :=
  ∀ (s u : State) (p : Latch) (offset : BitVec 10) (width : Nat), s.fault = false → s.pending = some p →
    exec p.cmd s = .next u →
    exec p.cmd (busRead offset width s) =
      .next { u with rdata := (busRead offset width s).rdata, draws := (busRead offset width s).draws }

/-! ### The constructors (spec/48_wrapper.md) -/

/-- R93. -/
def Obligations.ZeroWritesZero : Prop :=
  ∀ (rd : Reg) (s : State), s.Ready →
    encode (.zero rd) = formatR .zero rd 0 0 0 0 0 ∧ Opcode.zero.bits = 0x01 ∧ EncodingFaults .zero s ∧
    ∃ u, Completes (.zero rd) s u ∧ u.value rd 8 = some 0 ∧ Frame [(rd, 8)] .noFlag s u ∧ SameRandom s u ∧
      u.readUndef = s.readUndef

/-- R94. -/
def Obligations.LdwWritesData : Prop :=
  ∀ (rd : Reg) (s : State), s.Ready →
    encode (.ldw rd) = formatR .ldw rd 0 0 0 0 0 ∧ Opcode.ldw.bits = 0x02 ∧ EncodingFaults .ldw s ∧
    ∃ u, Completes (.ldw rd) s u ∧ u.limb rd 0 = .word s.data ∧ (∀ j, 0 < j → j < 8 → u.limb rd j = .word 0) ∧
      Frame [(rd, 8)] .noFlag s u ∧ SameRandom s u

/-- R95, with byte k of the sequence as spec/10_state.md R32 places it. -/
def Obligations.LdbImportsBigEndianBytes : Prop :=
  ∀ (rd : Reg) (s : State), s.Ready →
    let n := s.bytelen.toNat
    let b := fun k => (wordAt s.bytebuf (k / 8)).toNat / 2 ^ (56 - 8 * (k % 8)) % 256
    encode (.ldb rd) = formatR .ldb rd 0 0 0 0 0 ∧ Opcode.ldb.bits = 0x03 ∧ EncodingFaults .ldb s ∧
    (64 < n → Faults .bytesOversize (.ldb rd) s) ∧
    (n ≤ 64 → ∃ u, Completes (.ldb rd) s u ∧
      u.value rd 8 = some (∑ k ∈ Finset.range n, b k * 256 ^ (n - 1 - k)) ∧
      Frame [(rd, 8)] .noFlag s u ∧ SameRandom s u)

/-- spec/30_encoding.md R65: the words that the macro LBYTES writes hold byte k of the sequence where LDB reads it. -/
def Obligations.LbytesWordsHoldTheSequence : Prop :=
  ∀ (b : List Byte) (buf : Vector Word 8) (k : Nat), k < b.length → b.length ≤ 64 →
    wordAt buf (k / 8) = packWord b (k / 8) → some (byteAt buf k) = b[k]?

/-- spec/30_encoding.md R65 and the row LBYTES of spec/48_wrapper.md R96: the accesses of the macro, made to an idle unit
and followed by the unit's own step, leave the big-endian value of the sequence in V[RD], or, for more than 64 bytes, the
fault BYTES_OVERSIZE. The run rests on the model's choices: the accesses are a list and the unit advances by itself after
them (notes/assumptions/3.md), and a length of 2^64 or more is written as the largest value (21.md). -/
def Obligations.LbytesImportsTheSequence : Prop :=
  ∀ (vd : Reg) (b : List Byte) (s : State), s.Ready → s.rst = false → s.inputs = macroLbytes vd b →
    ∃ k u, Sys2Proof.core.run k s = .next u ∧ u.inputs = [] ∧ u.busy = false ∧
      (b.length ≤ 64 → u.fault = false ∧ u.bytelen.toNat = b.length ∧
        u.value vd 8 = some (b.foldl (fun acc x => acc * 256 + x.toNat) 0)) ∧
      (64 < b.length → u.fault = true ∧ u.fcause = Cause.bytesOversize.code ∧ u.fcmd = cmdValue (.ldb vd) ∧
        ∀ i < 8, u.limb vd i = .undef) ∧
      (∀ r i, r ≠ vd → u.limb r i = s.limb r i) ∧ u.c = s.c ∧ u.cmpr = s.cmpr ∧ u.data = s.data ∧
      (∀ j < 8, b.length ≤ 8 * j → wordAt u.bytebuf j = wordAt s.bytebuf j) ∧ SameRandom s u

/-! ### The additive core (spec/41_additive.md) -/

/-- R68, with the carry of R66. -/
def Obligations.AddGivesSumAndCarry : Prop :=
  ∀ (rd rs1 rs2 : Reg) (la lb : Len) (s : State), s.Ready →
    let A := operandA s rs1 la
    let B := operandB s rs2 lb
    let L := limbs la
    encode (.add rd rs1 rs2 la lb) = formatR .add rd rs1 rs2 0 la lb ∧ Opcode.add.bits = 0x08 ∧ EncodingFaults .add s ∧
    (L < limbs lb → Faults .lengthMismatch (.add rd rs1 rs2 la lb) s) ∧
    (limbs lb ≤ L → ∃ u, Completes (.add rd rs1 rs2 la lb) s u ∧
      u.value rd L = some ((A + B) % 2 ^ (64 * L)) ∧ (u.c = true ↔ 2 ^ (64 * L) ≤ A + B) ∧
      Frame [(rd, L)] .carry s u ∧ SameRandom s u)

/-- R69, with the borrow of R66. -/
def Obligations.SubGivesDifferenceAndBorrow : Prop :=
  ∀ (rd rs1 rs2 : Reg) (la lb : Len) (s : State), s.Ready →
    let A := operandA s rs1 la
    let B := operandB s rs2 lb
    let L := limbs la
    encode (.sub rd rs1 rs2 la lb) = formatR .sub rd rs1 rs2 0 la lb ∧ Opcode.sub.bits = 0x09 ∧ EncodingFaults .sub s ∧
    (L ≠ limbs lb → Faults .lengthMismatch (.sub rd rs1 rs2 la lb) s) ∧
    (L = limbs lb → ∃ u, Completes (.sub rd rs1 rs2 la lb) s u ∧
      u.value rd L = some (if B ≤ A then A - B else A + 2 ^ (64 * L) - B) ∧ (u.c = true ↔ A < B) ∧
      Frame [(rd, L)] .carry s u ∧ SameRandom s u)

/-! ### The comparator (spec/42_compare.md) -/

/-- R71: the scan of the limbs from the top, where the first unequal pair decides, and the numeric order it gives. -/
def Obligations.CmpGivesTheNumericOrder : Prop :=
  ∀ (rs1 rs2 : Reg) (la lb : Len) (s : State), s.Ready →
    let A := operandA s rs1 la
    let B := operandB s rs2 lb
    let x := fun j => readLimb (s.limb rs1 j) (s.draws + j)
    let y := fun j => readLimb (s.limb rs2 j) (s.draws + 8 + j)
    encode (.cmp rs1 rs2 la lb) = formatR .cmp 0 rs1 rs2 0 la lb ∧ Opcode.cmp.bits = 0x0C ∧ EncodingFaults .cmp s ∧
    (limbs la ≠ limbs lb → Faults .lengthMismatch (.cmp rs1 rs2 la lb) s) ∧
    (limbs la = limbs lb → ∃ u, Completes (.cmp rs1 rs2 la lb) s u ∧
      (∀ i < limbs la, x i ≠ y i → (∀ j, i < j → j < limbs la → x j = y j) →
        u.cmpr = if x i < y i then .less else .greater) ∧
      ((∀ i < limbs la, x i = y i) → u.cmpr = .equal) ∧
      u.cmpr = (if A < B then .less else if A = B then .equal else .greater) ∧
      Frame [] .comparison s u ∧ SameRandom s u)

/-! ### The bit-shift engine (spec/43_shift.md) -/

/-- R73 in both of its forms, with the range of R72: the number, and destination limb i from the source limbs, for
d = s / 64 and r = s mod 64. -/
def Obligations.ShlMultipliesByAPowerOfTwo : Prop :=
  ∀ (rd rs1 : Reg) (shamt : BitVec 11) (la : Len) (s : State), s.Ready →
    let A := operandA s rs1 la
    let L := limbs la
    let x := fun j => readLimb (s.limb rs1 j) (s.draws + j)
    let d := shamt.toNat / 64
    let r := shamt.toNat % 64
    encode (.shl rd rs1 shamt la) = formatS .shl rd rs1 la shamt ∧ Opcode.shl.bits = 0x10 ∧ EncodingFaults .shl s ∧
    (64 * L ≤ shamt.toNat → Faults .shiftRange (.shl rd rs1 shamt la) s) ∧
    (shamt.toNat < 64 * L → ∃ u, Completes (.shl rd rs1 shamt la) s u ∧
      u.value rd L = some (A * 2 ^ shamt.toNat % 2 ^ (64 * L)) ∧
      (∀ i < L, u.limb rd i = .word (if i < d then 0
        else if i = d then x 0 <<< r
        else if r = 0 then x (i - d)
        else (x (i - d) <<< r) ||| (x (i - d - 1) >>> (64 - r)))) ∧
      Frame [(rd, L)] .noFlag s u ∧ SameRandom s u)

/-- R74 in both of its forms, with the range of R72, and that a right shift undoes a left shift that lost no set bit. -/
def Obligations.ShrDividesByAPowerOfTwo : Prop :=
  (∀ (rd rs1 : Reg) (shamt : BitVec 11) (la : Len) (s : State), s.Ready →
    let A := operandA s rs1 la
    let L := limbs la
    let x := fun j => readLimb (s.limb rs1 j) (s.draws + j)
    let d := shamt.toNat / 64
    let r := shamt.toNat % 64
    encode (.shr rd rs1 shamt la) = formatS .shr rd rs1 la shamt ∧ Opcode.shr.bits = 0x11 ∧ EncodingFaults .shr s ∧
    (64 * L ≤ shamt.toNat → Faults .shiftRange (.shr rd rs1 shamt la) s) ∧
    (shamt.toNat < 64 * L → ∃ u, Completes (.shr rd rs1 shamt la) s u ∧
      u.value rd L = some (A / 2 ^ shamt.toNat) ∧
      (∀ i < L, u.limb rd i = .word (if L ≤ i + d then 0
        else if i + d + 1 = L then x (i + d) >>> r
        else if r = 0 then x (i + d)
        else (x (i + d) >>> r) ||| (x (i + d + 1) <<< (64 - r)))) ∧
      Frame [(rd, L)] .noFlag s u ∧ SameRandom s u)) ∧
  (∀ (rd rq rs1 : Reg) (shamt : BitVec 11) (la : Len) (s : State) (A : Nat), s.Ready → shamt.toNat < 64 * limbs la →
    s.value rs1 (limbs la) = some A → A * 2 ^ shamt.toNat < 2 ^ (64 * limbs la) →
    ∃ u v, Completes (.shl rd rs1 shamt la) s u ∧ Completes (.shr rq rd shamt la) u v ∧ v.value rq (limbs la) = some A)

/-! ### The bitwise engine (spec/44_bitwise.md) -/

/-- R76, R77, R78: AND, OR and XOR, lane by lane. -/
def Obligations.AndOrXorWorkLimbByLimb : Prop :=
  Opcode.bitAnd.bits = 0x14 ∧ Opcode.bitOr.bits = 0x15 ∧ Opcode.bitXor.bits = 0x16 ∧
  LaneResult .bitAnd .bitAnd (fun x y => x &&& y) ∧ LaneResult .bitOr .bitOr (fun x y => x ||| y) ∧
  LaneResult .bitXor .bitXor (fun x y => x ^^^ y)

/-- R79, in both of its forms. -/
def Obligations.NotComplementsEachLimb : Prop :=
  ∀ (rd rs1 : Reg) (la : Len) (s : State), s.Ready →
    encode (.bitNot rd rs1 la) = formatR .bitNot rd rs1 0 0 la 0 ∧ Opcode.bitNot.bits = 0x17 ∧ EncodingFaults .bitNot s ∧
    ∃ u, Completes (.bitNot rd rs1 la) s u ∧
      (∀ j < limbs la, u.limb rd j = .word (~~~ readLimb (s.limb rs1 j) (s.draws + j))) ∧
      u.value rd (limbs la) = some (2 ^ (64 * limbs la) - 1 - operandA s rs1 la) ∧
      Frame [(rd, limbs la)] .noFlag s u ∧ SameRandom s u

/-- spec/30_encoding.md R65: MOV copies a defined register. -/
def Obligations.MovCopiesTheRegister : Prop :=
  ∀ (vd vs : Reg) (l : Option Len) (s : State) (x : Nat), s.Ready → s.value vs (limbs (defaultLa l)) = some x →
    ∃ u, Completes (macroMov vd vs l) s u ∧ u.value vd (limbs (defaultLa l)) = some x ∧
      Frame [(vd, limbs (defaultLa l))] .noFlag s u ∧ SameRandom s u

/-! ### The multiplication engine (spec/45_multiply.md) -/

/-- R82, with the lengths of R81. -/
def Obligations.MulGivesTheLowHalf : Prop :=
  ∀ (rd rs1 rs2 : Reg) (la lb : Len) (s : State), s.Ready →
    let A := operandA s rs1 la
    let B := operandB s rs2 lb
    let L := limbs la
    encode (.mul rd rs1 rs2 la lb) = formatR .mul rd rs1 rs2 0 la lb ∧ Opcode.mul.bits = 0x18 ∧ EncodingFaults .mul s ∧
    (L ≠ limbs lb → Faults .lengthMismatch (.mul rd rs1 rs2 la lb) s) ∧
    (L = limbs lb → L = 3 ∨ L = 5 ∨ L = 6 ∨ L = 7 → Faults .lengthNotPow2 (.mul rd rs1 rs2 la lb) s) ∧
    (L = limbs lb → L = 1 ∨ L = 2 ∨ L = 4 ∨ L = 8 → ∃ u, Completes (.mul rd rs1 rs2 la lb) s u ∧
      u.value rd L = some (A * B % 2 ^ (64 * L)) ∧ Frame [(rd, L)] .noFlag s u ∧ SameRandom s u)

/-- R83, with the lengths of R81: the two halves make the exact product. -/
def Obligations.MulfGivesTheExactProduct : Prop :=
  ∀ (rd rd2 rs1 rs2 : Reg) (la lb : Len) (s : State), s.Ready →
    let A := operandA s rs1 la
    let B := operandB s rs2 lb
    let L := limbs la
    encode (.mulf rd rd2 rs1 rs2 la lb) = formatR .mulf rd rs1 rs2 rd2 la lb ∧ Opcode.mulf.bits = 0x19 ∧ EncodingFaults .mulf s ∧
    (rd = rd2 → Faults .destConflict (.mulf rd rd2 rs1 rs2 la lb) s) ∧
    (rd ≠ rd2 → L ≠ limbs lb → Faults .lengthMismatch (.mulf rd rd2 rs1 rs2 la lb) s) ∧
    (rd ≠ rd2 → L = limbs lb → L = 3 ∨ L = 5 ∨ L = 6 ∨ L = 7 →
      Faults .lengthNotPow2 (.mulf rd rd2 rs1 rs2 la lb) s) ∧
    (rd ≠ rd2 → L = limbs lb → L = 1 ∨ L = 2 ∨ L = 4 ∨ L = 8 →
      ∃ u low high, Completes (.mulf rd rd2 rs1 rs2 la lb) s u ∧
        u.value rd L = some low ∧ u.value rd2 L = some high ∧ low < 2 ^ (64 * L) ∧ A * B = high * 2 ^ (64 * L) + low ∧
        Frame [(rd, L), (rd2, L)] .noFlag s u ∧ SameRandom s u)

/-! ### The division engine (spec/46_divide.md) -/

/-- R86. -/
def Obligations.DivGivesTheQuotient : Prop :=
  ∀ (rd rs1 rs2 : Reg) (la lb : Len) (s : State), s.Ready →
    let A := operandA s rs1 la
    let B := operandB s rs2 lb
    let L := limbs la
    encode (.div rd rs1 rs2 la lb) = formatR .div rd rs1 rs2 0 la lb ∧ Opcode.div.bits = 0x1C ∧ EncodingFaults .div s ∧
    (L ≠ limbs lb → Faults .lengthMismatch (.div rd rs1 rs2 la lb) s) ∧
    (L = limbs lb → B = 0 → Faults .divZero (.div rd rs1 rs2 la lb) s) ∧
    (L = limbs lb → B ≠ 0 → ∃ u, Completes (.div rd rs1 rs2 la lb) s u ∧
      u.value rd L = some (A / B) ∧ Frame [(rd, L)] .noFlag s u ∧ SameRandom s u)

/-- R87. -/
def Obligations.RemGivesTheRemainder : Prop :=
  ∀ (rd rs1 rs2 : Reg) (la lb : Len) (s : State), s.Ready →
    let A := operandA s rs1 la
    let B := operandB s rs2 lb
    let L := limbs la
    encode (.rem rd rs1 rs2 la lb) = formatR .rem rd rs1 rs2 0 la lb ∧ Opcode.rem.bits = 0x1D ∧ EncodingFaults .rem s ∧
    (L ≠ limbs lb → Faults .lengthMismatch (.rem rd rs1 rs2 la lb) s) ∧
    (L = limbs lb → B = 0 → Faults .divZero (.rem rd rs1 rs2 la lb) s) ∧
    (L = limbs lb → B ≠ 0 → ∃ u, Completes (.rem rd rs1 rs2 la lb) s u ∧
      u.value rd L = some (A % B) ∧ Frame [(rd, L)] .noFlag s u ∧ SameRandom s u)

/-- R85, the results as R84 characterises them: A = B * Q + R and R < B. -/
def Obligations.DivrGivesQuotientAndRemainder : Prop :=
  ∀ (rd rd2 rs1 rs2 : Reg) (la lb : Len) (s : State), s.Ready →
    let A := operandA s rs1 la
    let B := operandB s rs2 lb
    let L := limbs la
    encode (.divr rd rd2 rs1 rs2 la lb) = formatR .divr rd rs1 rs2 rd2 la lb ∧ Opcode.divr.bits = 0x1E ∧ EncodingFaults .divr s ∧
    (rd = rd2 → Faults .destConflict (.divr rd rd2 rs1 rs2 la lb) s) ∧
    (rd ≠ rd2 → L ≠ limbs lb → Faults .lengthMismatch (.divr rd rd2 rs1 rs2 la lb) s) ∧
    (rd ≠ rd2 → L = limbs lb → B = 0 → Faults .divZero (.divr rd rd2 rs1 rs2 la lb) s) ∧
    (rd ≠ rd2 → L = limbs lb → B ≠ 0 → ∃ u Q R, Completes (.divr rd rd2 rs1 rs2 la lb) s u ∧
      u.value rd L = some Q ∧ u.value rd2 L = some R ∧ A = B * Q + R ∧ R < B ∧
      Frame [(rd, L), (rd2, L)] .noFlag s u ∧ SameRandom s u)

/-! ### The sampler (spec/47_sample.md) -/

/-- R89, one turn of the loop, with m, t and mask of R14 and R89 written out from the bound: the word drawn for limb i,
masked at the top limb t. The attempt is abandoned where the word exceeds the bound's limb with every limb so far equal, or
where the last limb leaves the candidate equal to the bound; else the limb is stored. R91: without a word the command is
held. That a step draws one word is the model's choice (notes/assumptions/10.md). -/
def Obligations.SmpDrawsOneWordATurn : Prop :=
  ∀ (rd rs1 : Reg) (la : Len) (s : State) (p : Latch) (g : Sampler) (i m : Nat), s.fault = false → s.pending = some p →
    let X := p.a.toNat
    let top := (m + 63) / 64 - 1
    let mask : Word := BitVec.ofNat 64 (2 ^ (m - 64 * top) - 1)
    let fresh : Sampler := { cand := Vector.replicate 8 0, eq := true, left := top + 1 }
    2 ^ (m - 1) ≤ X → X < 2 ^ m → (s.sampler = some g ∨ (s.sampler = none ∧ g = fresh)) → g.left = i + 1 →
    (s.rngQueue = [] → exec (.smp rd rs1 la) s = .next s) ∧
    (∀ w ws, s.rngQueue = w :: ws →
      let w' := if i = top then w &&& mask else w
      ∃ t h, exec (.smp rd rs1 la) s = .next t ∧ t.rngQueue = ws ∧ t.rngCursor = s.rngCursor + 1 ∧
        t.pending = some p ∧ t.sampler = some h ∧ Frame [] .noFlag s t ∧
        (g.eq = true → limbOf X i < w' → h = fresh) ∧
        (g.eq = true → w' = limbOf X i → i = 0 → h = fresh) ∧
        (g.eq = true → w' = limbOf X i → i ≠ 0 → h.eq = true ∧ h.left = i ∧ h.cand = setWord g.cand i w') ∧
        (g.eq = true → w' < limbOf X i → h.eq = false ∧ h.left = i ∧ h.cand = setWord g.cand i w') ∧
        (g.eq = false → h.eq = false ∧ h.left = i ∧ h.cand = setWord g.cand i w'))

/-- R89: an accepted candidate is written to the low L limbs of RD and the command completes. That the write is a step of
its own is the model's choice (notes/assumptions/10.md). -/
def Obligations.SmpWritesTheAcceptedCandidate : Prop :=
  ∀ (rd rs1 : Reg) (la : Len) (s : State) (p : Latch) (g : Sampler), s.fault = false → s.pending = some p →
    s.sampler = some g → g.left = 0 →
    ∃ u, exec (.smp rd rs1 la) s = .next u ∧ u.busy = false ∧ u.sampler = none ∧
      (∀ j < limbs la, u.limb rd j = .word (wordAt g.cand j)) ∧ u.value rd (limbs la) = some (wordsValue g.cand (limbs la)) ∧
      Frame [(rd, limbs la)] .noFlag s u ∧ SameRandom s u

/-- R90: "Every result satisfies 0 <= result < X", in every state that meets the invariant. That the write is a turn of
its own is the model's choice (notes/assumptions/10.md). -/
def Obligations.SampleIsBelowItsBound : Prop :=
  ∀ (rd rs1 : Reg) (la : Len) (s : State) (p : Latch) (g : Sampler), s.Inv → s.pending = some p →
    p.cmd = .smp rd rs1 la → s.sampler = some g → g.left = 0 →
    ∃ u x, exec (.smp rd rs1 la) s = .next u ∧ u.busy = false ∧ u.value rd (limbs la) = some x ∧ x < p.a.toNat

/-- R89: the encoding, the refusal of a bound of 0 (which takes no random word), and, for any other bound, the sampling
loop, with m, t and mask of R14 and R89 written out from the bound. Left to itself with the words of `rngQueue` offered,
the accepted command ends with the candidate that the loop accepts from those words, having taken exactly the words the
loop takes. The run rests on the model's choices: the unit advances by itself when no input is listed
(notes/assumptions/3.md), the words offered are a list (5.md), and a turn draws one word or writes the candidate (10.md). -/
def Obligations.SmpRunsTheSamplingLoop : Prop :=
  ∀ (rd rs1 : Reg) (la : Len) (s : State), s.Ready →
    let X := operandA s rs1 la
    let L := limbs la
    encode (.smp rd rs1 la) = formatR .smp rd rs1 0 0 la 0 ∧ Opcode.smp.bits = 0x20 ∧ EncodingFaults .smp s ∧
    (X = 0 → Faults .zeroBound (.smp rd rs1 la) s) ∧
    (X ≠ 0 → ∃ m t, 2 ^ (m - 1) ≤ X ∧ X < 2 ^ m ∧ exec (.smp rd rs1 la) s = .next t ∧ t.busy = true ∧
      rngReady t = true ∧ Frame [] .noFlag s t ∧ SameRandom s t ∧
      let top := (m + 63) / 64 - 1
      let mask : Word := BitVec.ofNat 64 (2 ^ (m - 64 * top) - 1)
      ∀ (n : Nat) (cand : Vector Word 8) (rest : List Word), s.inputs = [] →
        sampleBelow X top mask n s.rngQueue = some (cand, rest) →
        ∃ k u, Sys2Proof.core.run k t = .next u ∧ u.busy = false ∧
          (∀ j < L, u.limb rd j = .word (wordAt cand j)) ∧ u.value rd L = some (wordsValue cand L) ∧
          u.rngQueue = rest ∧ u.rngCursor + rest.length = s.rngCursor + s.rngQueue.length ∧ Frame [(rd, L)] .noFlag s u)
end

