-- ==== Sys2Proof/Laws/State.lean ====
section
/-! SUPPORT. One lemma per field for every shared update of the state, so that no later proof unfolds a record. -/

namespace Sys2Proof.Machine


/-! ### Writing limbs -/

@[simp] theorem writeLow_fault (r : Reg) (n : Nat) (g : Nat → Limb) (s : State) : (writeLow r n g s).fault = s.fault := rfl
@[simp] theorem writeLow_c (r : Reg) (n : Nat) (g : Nat → Limb) (s : State) : (writeLow r n g s).c = s.c := rfl
@[simp] theorem writeLow_cmpr (r : Reg) (n : Nat) (g : Nat → Limb) (s : State) : (writeLow r n g s).cmpr = s.cmpr := rfl
@[simp] theorem writeLow_fcause (r : Reg) (n : Nat) (g : Nat → Limb) (s : State) : (writeLow r n g s).fcause = s.fcause := rfl
@[simp] theorem writeLow_fcmd (r : Reg) (n : Nat) (g : Nat → Limb) (s : State) : (writeLow r n g s).fcmd = s.fcmd := rfl
@[simp] theorem writeLow_data (r : Reg) (n : Nat) (g : Nat → Limb) (s : State) : (writeLow r n g s).data = s.data := rfl
@[simp] theorem writeLow_bytelen (r : Reg) (n : Nat) (g : Nat → Limb) (s : State) : (writeLow r n g s).bytelen = s.bytelen := rfl
@[simp] theorem writeLow_bytebuf (r : Reg) (n : Nat) (g : Nat → Limb) (s : State) : (writeLow r n g s).bytebuf = s.bytebuf := rfl
@[simp] theorem writeLow_pending (r : Reg) (n : Nat) (g : Nat → Limb) (s : State) : (writeLow r n g s).pending = s.pending := rfl
@[simp] theorem writeLow_sampler (r : Reg) (n : Nat) (g : Nat → Limb) (s : State) : (writeLow r n g s).sampler = s.sampler := rfl
@[simp] theorem writeLow_rst (r : Reg) (n : Nat) (g : Nat → Limb) (s : State) : (writeLow r n g s).rst = s.rst := rfl
@[simp] theorem writeLow_rdata (r : Reg) (n : Nat) (g : Nat → Limb) (s : State) : (writeLow r n g s).rdata = s.rdata := rfl
@[simp] theorem writeLow_rngQueue (r : Reg) (n : Nat) (g : Nat → Limb) (s : State) : (writeLow r n g s).rngQueue = s.rngQueue := rfl
@[simp] theorem writeLow_rngCursor (r : Reg) (n : Nat) (g : Nat → Limb) (s : State) : (writeLow r n g s).rngCursor = s.rngCursor := rfl
@[simp] theorem writeLow_inputs (r : Reg) (n : Nat) (g : Nat → Limb) (s : State) : (writeLow r n g s).inputs = s.inputs := rfl
@[simp] theorem writeLow_draws (r : Reg) (n : Nat) (g : Nat → Limb) (s : State) : (writeLow r n g s).draws = s.draws := rfl
@[simp] theorem writeLow_readUndef (r : Reg) (n : Nat) (g : Nat → Limb) (s : State) : (writeLow r n g s).readUndef = s.readUndef := rfl
@[simp] theorem writeWords_fault (r : Reg) (n : Nat) (g : Nat → Word) (s : State) : (writeWords r n g s).fault = s.fault := rfl
@[simp] theorem writeWords_c (r : Reg) (n : Nat) (g : Nat → Word) (s : State) : (writeWords r n g s).c = s.c := rfl
@[simp] theorem writeWords_cmpr (r : Reg) (n : Nat) (g : Nat → Word) (s : State) : (writeWords r n g s).cmpr = s.cmpr := rfl
@[simp] theorem writeWords_fcause (r : Reg) (n : Nat) (g : Nat → Word) (s : State) : (writeWords r n g s).fcause = s.fcause := rfl
@[simp] theorem writeWords_fcmd (r : Reg) (n : Nat) (g : Nat → Word) (s : State) : (writeWords r n g s).fcmd = s.fcmd := rfl
@[simp] theorem writeWords_data (r : Reg) (n : Nat) (g : Nat → Word) (s : State) : (writeWords r n g s).data = s.data := rfl
@[simp] theorem writeWords_bytelen (r : Reg) (n : Nat) (g : Nat → Word) (s : State) : (writeWords r n g s).bytelen = s.bytelen := rfl
@[simp] theorem writeWords_bytebuf (r : Reg) (n : Nat) (g : Nat → Word) (s : State) : (writeWords r n g s).bytebuf = s.bytebuf := rfl
@[simp] theorem writeWords_pending (r : Reg) (n : Nat) (g : Nat → Word) (s : State) : (writeWords r n g s).pending = s.pending := rfl
@[simp] theorem writeWords_sampler (r : Reg) (n : Nat) (g : Nat → Word) (s : State) : (writeWords r n g s).sampler = s.sampler := rfl
@[simp] theorem writeWords_rst (r : Reg) (n : Nat) (g : Nat → Word) (s : State) : (writeWords r n g s).rst = s.rst := rfl
@[simp] theorem writeWords_rdata (r : Reg) (n : Nat) (g : Nat → Word) (s : State) : (writeWords r n g s).rdata = s.rdata := rfl
@[simp] theorem writeWords_rngQueue (r : Reg) (n : Nat) (g : Nat → Word) (s : State) : (writeWords r n g s).rngQueue = s.rngQueue := rfl
@[simp] theorem writeWords_rngCursor (r : Reg) (n : Nat) (g : Nat → Word) (s : State) : (writeWords r n g s).rngCursor = s.rngCursor := rfl
@[simp] theorem writeWords_inputs (r : Reg) (n : Nat) (g : Nat → Word) (s : State) : (writeWords r n g s).inputs = s.inputs := rfl
@[simp] theorem writeWords_draws (r : Reg) (n : Nat) (g : Nat → Word) (s : State) : (writeWords r n g s).draws = s.draws := rfl
@[simp] theorem writeWords_readUndef (r : Reg) (n : Nat) (g : Nat → Word) (s : State) : (writeWords r n g s).readUndef = s.readUndef := rfl
@[simp] theorem wrL_fault (r : Reg) (n x : Nat) (s : State) : (wrL r n x s).fault = s.fault := rfl
@[simp] theorem wrL_c (r : Reg) (n x : Nat) (s : State) : (wrL r n x s).c = s.c := rfl
@[simp] theorem wrL_cmpr (r : Reg) (n x : Nat) (s : State) : (wrL r n x s).cmpr = s.cmpr := rfl
@[simp] theorem wrL_fcause (r : Reg) (n x : Nat) (s : State) : (wrL r n x s).fcause = s.fcause := rfl
@[simp] theorem wrL_fcmd (r : Reg) (n x : Nat) (s : State) : (wrL r n x s).fcmd = s.fcmd := rfl
@[simp] theorem wrL_data (r : Reg) (n x : Nat) (s : State) : (wrL r n x s).data = s.data := rfl
@[simp] theorem wrL_bytelen (r : Reg) (n x : Nat) (s : State) : (wrL r n x s).bytelen = s.bytelen := rfl
@[simp] theorem wrL_bytebuf (r : Reg) (n x : Nat) (s : State) : (wrL r n x s).bytebuf = s.bytebuf := rfl
@[simp] theorem wrL_pending (r : Reg) (n x : Nat) (s : State) : (wrL r n x s).pending = s.pending := rfl
@[simp] theorem wrL_sampler (r : Reg) (n x : Nat) (s : State) : (wrL r n x s).sampler = s.sampler := rfl
@[simp] theorem wrL_rst (r : Reg) (n x : Nat) (s : State) : (wrL r n x s).rst = s.rst := rfl
@[simp] theorem wrL_rdata (r : Reg) (n x : Nat) (s : State) : (wrL r n x s).rdata = s.rdata := rfl
@[simp] theorem wrL_rngQueue (r : Reg) (n x : Nat) (s : State) : (wrL r n x s).rngQueue = s.rngQueue := rfl
@[simp] theorem wrL_rngCursor (r : Reg) (n x : Nat) (s : State) : (wrL r n x s).rngCursor = s.rngCursor := rfl
@[simp] theorem wrL_inputs (r : Reg) (n x : Nat) (s : State) : (wrL r n x s).inputs = s.inputs := rfl
@[simp] theorem wrL_draws (r : Reg) (n x : Nat) (s : State) : (wrL r n x s).draws = s.draws := rfl
@[simp] theorem wrL_readUndef (r : Reg) (n x : Nat) (s : State) : (wrL r n x s).readUndef = s.readUndef := rfl

/-! ### Completion -/

@[simp] theorem complete_v (s : State) : (complete s).v = s.v := rfl
@[simp] theorem complete_fault (s : State) : (complete s).fault = s.fault := rfl
@[simp] theorem complete_c (s : State) : (complete s).c = s.c := rfl
@[simp] theorem complete_cmpr (s : State) : (complete s).cmpr = s.cmpr := rfl
@[simp] theorem complete_fcause (s : State) : (complete s).fcause = s.fcause := rfl
@[simp] theorem complete_fcmd (s : State) : (complete s).fcmd = s.fcmd := rfl
@[simp] theorem complete_data (s : State) : (complete s).data = s.data := rfl
@[simp] theorem complete_bytelen (s : State) : (complete s).bytelen = s.bytelen := rfl
@[simp] theorem complete_bytebuf (s : State) : (complete s).bytebuf = s.bytebuf := rfl
@[simp] theorem complete_pending (s : State) : (complete s).pending = none := rfl
@[simp] theorem complete_sampler (s : State) : (complete s).sampler = none := rfl
@[simp] theorem complete_rst (s : State) : (complete s).rst = s.rst := rfl
@[simp] theorem complete_rdata (s : State) : (complete s).rdata = s.rdata := rfl
@[simp] theorem complete_rngQueue (s : State) : (complete s).rngQueue = s.rngQueue := rfl
@[simp] theorem complete_rngCursor (s : State) : (complete s).rngCursor = s.rngCursor := rfl
@[simp] theorem complete_inputs (s : State) : (complete s).inputs = s.inputs := rfl
@[simp] theorem complete_draws (s : State) : (complete s).draws = s.draws := rfl
@[simp] theorem complete_readUndef (s : State) : (complete s).readUndef = s.readUndef := rfl

/-! ### Destinations and flags left undefined by a fault -/

@[simp] theorem undefDests_fault (ds : List (Reg × Nat)) (s : State) : (undefDests ds s).fault = s.fault := by
  induction ds generalizing s with
  | nil => rfl
  | cons d ds ih => exact ih _
@[simp] theorem undefDests_c (ds : List (Reg × Nat)) (s : State) : (undefDests ds s).c = s.c := by
  induction ds generalizing s with
  | nil => rfl
  | cons d ds ih => exact ih _
@[simp] theorem undefDests_cmpr (ds : List (Reg × Nat)) (s : State) : (undefDests ds s).cmpr = s.cmpr := by
  induction ds generalizing s with
  | nil => rfl
  | cons d ds ih => exact ih _
@[simp] theorem undefDests_fcause (ds : List (Reg × Nat)) (s : State) : (undefDests ds s).fcause = s.fcause := by
  induction ds generalizing s with
  | nil => rfl
  | cons d ds ih => exact ih _
@[simp] theorem undefDests_fcmd (ds : List (Reg × Nat)) (s : State) : (undefDests ds s).fcmd = s.fcmd := by
  induction ds generalizing s with
  | nil => rfl
  | cons d ds ih => exact ih _
@[simp] theorem undefDests_data (ds : List (Reg × Nat)) (s : State) : (undefDests ds s).data = s.data := by
  induction ds generalizing s with
  | nil => rfl
  | cons d ds ih => exact ih _
@[simp] theorem undefDests_bytelen (ds : List (Reg × Nat)) (s : State) : (undefDests ds s).bytelen = s.bytelen := by
  induction ds generalizing s with
  | nil => rfl
  | cons d ds ih => exact ih _
@[simp] theorem undefDests_bytebuf (ds : List (Reg × Nat)) (s : State) : (undefDests ds s).bytebuf = s.bytebuf := by
  induction ds generalizing s with
  | nil => rfl
  | cons d ds ih => exact ih _
@[simp] theorem undefDests_pending (ds : List (Reg × Nat)) (s : State) : (undefDests ds s).pending = s.pending := by
  induction ds generalizing s with
  | nil => rfl
  | cons d ds ih => exact ih _
@[simp] theorem undefDests_sampler (ds : List (Reg × Nat)) (s : State) : (undefDests ds s).sampler = s.sampler := by
  induction ds generalizing s with
  | nil => rfl
  | cons d ds ih => exact ih _
@[simp] theorem undefDests_rst (ds : List (Reg × Nat)) (s : State) : (undefDests ds s).rst = s.rst := by
  induction ds generalizing s with
  | nil => rfl
  | cons d ds ih => exact ih _
@[simp] theorem undefDests_rdata (ds : List (Reg × Nat)) (s : State) : (undefDests ds s).rdata = s.rdata := by
  induction ds generalizing s with
  | nil => rfl
  | cons d ds ih => exact ih _
@[simp] theorem undefDests_rngQueue (ds : List (Reg × Nat)) (s : State) : (undefDests ds s).rngQueue = s.rngQueue := by
  induction ds generalizing s with
  | nil => rfl
  | cons d ds ih => exact ih _
@[simp] theorem undefDests_rngCursor (ds : List (Reg × Nat)) (s : State) : (undefDests ds s).rngCursor = s.rngCursor := by
  induction ds generalizing s with
  | nil => rfl
  | cons d ds ih => exact ih _
@[simp] theorem undefDests_inputs (ds : List (Reg × Nat)) (s : State) : (undefDests ds s).inputs = s.inputs := by
  induction ds generalizing s with
  | nil => rfl
  | cons d ds ih => exact ih _
@[simp] theorem undefDests_draws (ds : List (Reg × Nat)) (s : State) : (undefDests ds s).draws = s.draws := by
  induction ds generalizing s with
  | nil => rfl
  | cons d ds ih => exact ih _
@[simp] theorem undefDests_readUndef (ds : List (Reg × Nat)) (s : State) : (undefDests ds s).readUndef = s.readUndef := by
  induction ds generalizing s with
  | nil => rfl
  | cons d ds ih => exact ih _
@[simp] theorem unsettleFlag_v (x : FlagName) (s : State) : (unsettleFlag x s).v = s.v := by cases x <;> rfl
@[simp] theorem unsettleFlag_fault (x : FlagName) (s : State) : (unsettleFlag x s).fault = s.fault := by cases x <;> rfl
@[simp] theorem unsettleFlag_fcause (x : FlagName) (s : State) : (unsettleFlag x s).fcause = s.fcause := by cases x <;> rfl
@[simp] theorem unsettleFlag_fcmd (x : FlagName) (s : State) : (unsettleFlag x s).fcmd = s.fcmd := by cases x <;> rfl
@[simp] theorem unsettleFlag_data (x : FlagName) (s : State) : (unsettleFlag x s).data = s.data := by cases x <;> rfl
@[simp] theorem unsettleFlag_bytelen (x : FlagName) (s : State) : (unsettleFlag x s).bytelen = s.bytelen := by cases x <;> rfl
@[simp] theorem unsettleFlag_bytebuf (x : FlagName) (s : State) : (unsettleFlag x s).bytebuf = s.bytebuf := by cases x <;> rfl
@[simp] theorem unsettleFlag_pending (x : FlagName) (s : State) : (unsettleFlag x s).pending = s.pending := by cases x <;> rfl
@[simp] theorem unsettleFlag_sampler (x : FlagName) (s : State) : (unsettleFlag x s).sampler = s.sampler := by cases x <;> rfl
@[simp] theorem unsettleFlag_rst (x : FlagName) (s : State) : (unsettleFlag x s).rst = s.rst := by cases x <;> rfl
@[simp] theorem unsettleFlag_rdata (x : FlagName) (s : State) : (unsettleFlag x s).rdata = s.rdata := by cases x <;> rfl
@[simp] theorem unsettleFlag_rngQueue (x : FlagName) (s : State) : (unsettleFlag x s).rngQueue = s.rngQueue := by cases x <;> rfl
@[simp] theorem unsettleFlag_rngCursor (x : FlagName) (s : State) : (unsettleFlag x s).rngCursor = s.rngCursor := by cases x <;> rfl
@[simp] theorem unsettleFlag_inputs (x : FlagName) (s : State) : (unsettleFlag x s).inputs = s.inputs := by cases x <;> rfl
@[simp] theorem unsettleFlag_readUndef (x : FlagName) (s : State) : (unsettleFlag x s).readUndef = s.readUndef := by cases x <;> rfl

/-! ### Taking a fault -/

@[simp] theorem takeFault_v (k : Cause) (w : Word) (ds : List (Reg × Nat)) (x : FlagName) (s : State) : (takeFault k w ds x s).v = (undefDests ds s).v := by simp [takeFault]
@[simp] theorem takeFault_fault (k : Cause) (w : Word) (ds : List (Reg × Nat)) (x : FlagName) (s : State) : (takeFault k w ds x s).fault = true := rfl
@[simp] theorem takeFault_fcause (k : Cause) (w : Word) (ds : List (Reg × Nat)) (x : FlagName) (s : State) : (takeFault k w ds x s).fcause = k.code := rfl
@[simp] theorem takeFault_fcmd (k : Cause) (w : Word) (ds : List (Reg × Nat)) (x : FlagName) (s : State) : (takeFault k w ds x s).fcmd = w := rfl
@[simp] theorem takeFault_data (k : Cause) (w : Word) (ds : List (Reg × Nat)) (x : FlagName) (s : State) : (takeFault k w ds x s).data = s.data := by simp [takeFault]
@[simp] theorem takeFault_bytelen (k : Cause) (w : Word) (ds : List (Reg × Nat)) (x : FlagName) (s : State) : (takeFault k w ds x s).bytelen = s.bytelen := by simp [takeFault]
@[simp] theorem takeFault_bytebuf (k : Cause) (w : Word) (ds : List (Reg × Nat)) (x : FlagName) (s : State) : (takeFault k w ds x s).bytebuf = s.bytebuf := by simp [takeFault]
@[simp] theorem takeFault_pending (k : Cause) (w : Word) (ds : List (Reg × Nat)) (x : FlagName) (s : State) : (takeFault k w ds x s).pending = none := rfl
@[simp] theorem takeFault_sampler (k : Cause) (w : Word) (ds : List (Reg × Nat)) (x : FlagName) (s : State) : (takeFault k w ds x s).sampler = none := rfl
@[simp] theorem takeFault_rst (k : Cause) (w : Word) (ds : List (Reg × Nat)) (x : FlagName) (s : State) : (takeFault k w ds x s).rst = s.rst := by simp [takeFault]
@[simp] theorem takeFault_rdata (k : Cause) (w : Word) (ds : List (Reg × Nat)) (x : FlagName) (s : State) : (takeFault k w ds x s).rdata = s.rdata := by simp [takeFault]
@[simp] theorem takeFault_rngQueue (k : Cause) (w : Word) (ds : List (Reg × Nat)) (x : FlagName) (s : State) : (takeFault k w ds x s).rngQueue = s.rngQueue := by simp [takeFault]
@[simp] theorem takeFault_rngCursor (k : Cause) (w : Word) (ds : List (Reg × Nat)) (x : FlagName) (s : State) : (takeFault k w ds x s).rngCursor = s.rngCursor := by simp [takeFault]
@[simp] theorem takeFault_inputs (k : Cause) (w : Word) (ds : List (Reg × Nat)) (x : FlagName) (s : State) : (takeFault k w ds x s).inputs = s.inputs := by simp [takeFault]
@[simp] theorem takeFault_readUndef (k : Cause) (w : Word) (ds : List (Reg × Nat)) (x : FlagName) (s : State) : (takeFault k w ds x s).readUndef = s.readUndef := by simp [takeFault]

/-! ### Reset -/

@[simp] theorem unitReset_v (s : State) : (unitReset s).v = allUndef := rfl
@[simp] theorem unitReset_fault (s : State) : (unitReset s).fault = false := rfl
@[simp] theorem unitReset_c (s : State) : (unitReset s).c = false := rfl
@[simp] theorem unitReset_cmpr (s : State) : (unitReset s).cmpr = .noResult := rfl
@[simp] theorem unitReset_fcause (s : State) : (unitReset s).fcause = 0 := rfl
@[simp] theorem unitReset_fcmd (s : State) : (unitReset s).fcmd = 0 := rfl
@[simp] theorem unitReset_data (s : State) : (unitReset s).data = 0 := rfl
@[simp] theorem unitReset_bytelen (s : State) : (unitReset s).bytelen = 0 := rfl
@[simp] theorem unitReset_bytebuf (s : State) : (unitReset s).bytebuf = Vector.replicate 8 0 := rfl
@[simp] theorem unitReset_pending (s : State) : (unitReset s).pending = none := rfl
@[simp] theorem unitReset_sampler (s : State) : (unitReset s).sampler = none := rfl
@[simp] theorem unitReset_rst (s : State) : (unitReset s).rst = s.rst := rfl
@[simp] theorem unitReset_rdata (s : State) : (unitReset s).rdata = s.rdata := rfl
@[simp] theorem unitReset_rngQueue (s : State) : (unitReset s).rngQueue = s.rngQueue := rfl
@[simp] theorem unitReset_rngCursor (s : State) : (unitReset s).rngCursor = s.rngCursor := rfl
@[simp] theorem unitReset_inputs (s : State) : (unitReset s).inputs = s.inputs := rfl
@[simp] theorem unitReset_draws (s : State) : (unitReset s).draws = s.draws := rfl
@[simp] theorem unitReset_readUndef (s : State) : (unitReset s).readUndef = s.readUndef := rfl

/-! ### The record of an operand read -/

@[simp] theorem noteReads_v (i : Instr) (s : State) : (noteReads i s).v = s.v := by unfold noteReads; split <;> rfl
@[simp] theorem noteReads_fault (i : Instr) (s : State) : (noteReads i s).fault = s.fault := by unfold noteReads; split <;> rfl
@[simp] theorem noteReads_c (i : Instr) (s : State) : (noteReads i s).c = s.c := by unfold noteReads; split <;> rfl
@[simp] theorem noteReads_cmpr (i : Instr) (s : State) : (noteReads i s).cmpr = s.cmpr := by unfold noteReads; split <;> rfl
@[simp] theorem noteReads_fcause (i : Instr) (s : State) : (noteReads i s).fcause = s.fcause := by unfold noteReads; split <;> rfl
@[simp] theorem noteReads_fcmd (i : Instr) (s : State) : (noteReads i s).fcmd = s.fcmd := by unfold noteReads; split <;> rfl
@[simp] theorem noteReads_data (i : Instr) (s : State) : (noteReads i s).data = s.data := by unfold noteReads; split <;> rfl
@[simp] theorem noteReads_bytelen (i : Instr) (s : State) : (noteReads i s).bytelen = s.bytelen := by unfold noteReads; split <;> rfl
@[simp] theorem noteReads_bytebuf (i : Instr) (s : State) : (noteReads i s).bytebuf = s.bytebuf := by unfold noteReads; split <;> rfl
@[simp] theorem noteReads_pending (i : Instr) (s : State) : (noteReads i s).pending = s.pending := by unfold noteReads; split <;> rfl
@[simp] theorem noteReads_sampler (i : Instr) (s : State) : (noteReads i s).sampler = s.sampler := by unfold noteReads; split <;> rfl
@[simp] theorem noteReads_rst (i : Instr) (s : State) : (noteReads i s).rst = s.rst := by unfold noteReads; split <;> rfl
@[simp] theorem noteReads_rdata (i : Instr) (s : State) : (noteReads i s).rdata = s.rdata := by unfold noteReads; split <;> rfl
@[simp] theorem noteReads_rngQueue (i : Instr) (s : State) : (noteReads i s).rngQueue = s.rngQueue := by unfold noteReads; split <;> rfl
@[simp] theorem noteReads_rngCursor (i : Instr) (s : State) : (noteReads i s).rngCursor = s.rngCursor := by unfold noteReads; split <;> rfl
@[simp] theorem noteReads_inputs (i : Instr) (s : State) : (noteReads i s).inputs = s.inputs := by unfold noteReads; split <;> rfl

end Sys2Proof.Machine
end

