-- ==== Sys2Proof/Laws/Ops.lean ====
section
/-! SUPPORT. What the shared operations do: limbs and values after a write, operand values and their bounds. -/

namespace Sys2Proof.Machine

theorem limbs_pos (l : Len) : 0 < limbs l := Nat.succ_pos _

theorem limbs_le (l : Len) : limbs l ≤ 8 := by have := l.isLt; unfold limbs; omega

/-! ### Rows of limbs -/

theorem limbAt_setLow (old : Vector Limb 8) (n : Nat) (g : Nat → Limb) (i : Nat) (hn : n ≤ 8) :
    limbAt (setLow old n g) i = if i < n then g i else limbAt old i := by
  unfold limbAt setLow
  by_cases h : i < 8
  · simp [h]
  · have : ¬ i < n := by omega
    simp [h, this]

/-- A write changes the low limbs of its register and no other limb. -/
theorem limb_writeLow (r q : Reg) (n : Nat) (g : Nat → Limb) (i : Nat) (s : State) (hn : n ≤ 8) :
    (writeLow r n g s).limb q i = if q = r ∧ i < n then g i else s.limb q i := by
  unfold State.limb writeLow
  by_cases h : q = r
  · subst h
    simp [limbAt_setLow _ _ _ _ hn]
  · have : r.val ≠ q.val := fun e => h (Fin.ext e.symm)
    simp [h, this]

theorem limb_writeWords (r q : Reg) (n : Nat) (g : Nat → Word) (i : Nat) (s : State) (hn : n ≤ 8) :
    (writeWords r n g s).limb q i = if q = r ∧ i < n then .word (g i) else s.limb q i :=
  limb_writeLow r q n _ i s hn

theorem limb_wrL (r q : Reg) (n x i : Nat) (s : State) (hn : n ≤ 8) :
    (wrL r n x s).limb q i = if q = r ∧ i < n then .word (limbOf x i) else s.limb q i :=
  limb_writeLow r q n _ i s hn

@[simp] theorem limb_complete (s : State) (q : Reg) (i : Nat) : (complete s).limb q i = s.limb q i := rfl

@[simp] theorem limb_unsettleFlag (f : FlagName) (s : State) (q : Reg) (i : Nat) :
    (unsettleFlag f s).limb q i = s.limb q i := by simp [State.limb]

@[simp] theorem limb_noteReads (i : Instr) (s : State) (q : Reg) (j : Nat) :
    (noteReads i s).limb q j = s.limb q j := by simp [State.limb]

@[simp] theorem limb_withC (s : State) (x : Bool) (q : Reg) (i : Nat) : ({ s with c := x } : State).limb q i = s.limb q i := rfl

@[simp] theorem limb_withCmpr (s : State) (x : CmpResult) (q : Reg) (i : Nat) :
    ({ s with cmpr := x } : State).limb q i = s.limb q i := rfl

/-- Two states with the same registers have the same limbs. -/
theorem limb_congr {s t : State} (h : s.v = t.v) (q : Reg) (i : Nat) : s.limb q i = t.limb q i := by
  simp [State.limb, h]

/-- The destinations of a command are at most 8 limbs long. -/
theorem destsOf_le (i : Instr) : ∀ d ∈ destsOf i, d.2 ≤ 8 := by
  cases i <;> simp [destsOf, limbs_le]

theorem limb_undefDests_of_outside (ds : List (Reg × Nat)) (s : State) (q : Reg) (i : Nat)
    (h8 : ∀ d ∈ ds, d.2 ≤ 8) (h : ∀ d ∈ ds, d.1 = q → d.2 ≤ i) : (undefDests ds s).limb q i = s.limb q i := by
  induction ds generalizing s with
  | nil => rfl
  | cons d ds ih =>
    have h1 : ¬ (q = d.1 ∧ i < d.2) := fun ⟨e, hi⟩ => by have := h d (by simp) e.symm; omega
    show (undefDests ds (writeLow d.1 d.2 (fun _ => .undef) s)).limb q i = _
    rw [ih _ (fun e he => h8 e (by simp [he])) (fun e he => h e (by simp [he])),
      limb_writeLow _ _ _ _ _ _ (h8 d (by simp)), if_neg h1]

theorem limb_undefDests_of_undef (ds : List (Reg × Nat)) (s : State) (q : Reg) (i : Nat) (h8 : ∀ d ∈ ds, d.2 ≤ 8)
    (hs : s.limb q i = .undef) : (undefDests ds s).limb q i = .undef := by
  induction ds generalizing s with
  | nil => exact hs
  | cons d ds ih =>
    refine ih _ (fun e he => h8 e (by simp [he])) ?_
    rw [limb_writeLow _ _ _ _ _ _ (h8 d (by simp))]
    split <;> simp [hs]

theorem limb_undefDests_of_mem (ds : List (Reg × Nat)) (s : State) (h8 : ∀ d ∈ ds, d.2 ≤ 8) :
    ∀ d ∈ ds, ∀ i < d.2, (undefDests ds s).limb d.1 i = .undef := by
  induction ds generalizing s with
  | nil => simp
  | cons e ds ih =>
    intro d hd i hi
    rcases List.mem_cons.mp hd with rfl | hd
    · refine limb_undefDests_of_undef ds _ _ _ (fun e he => h8 e (by simp [he])) ?_
      rw [limb_writeLow _ _ _ _ _ _ (h8 d (by simp))]
      simp [hi]
    · exact ih _ (fun e he => h8 e (by simp [he])) d hd i hi

/-! ### Values -/

/-- Sixty-four bits more. -/
theorem two_pow_limb_succ (n : Nat) : 2 ^ (64 * (n + 1)) = 2 ^ 64 * 2 ^ (64 * n) := by
  rw [Nat.mul_add, Nat.pow_add, Nat.mul_comm]

theorem add_limb_lt {x n : Nat} (w : Word) (hx : x < 2 ^ (64 * n)) :
    x + w.toNat * 2 ^ (64 * n) < 2 ^ (64 * (n + 1)) := by
  have hw := w.isLt
  rw [two_pow_limb_succ]
  calc x + w.toNat * 2 ^ (64 * n) < (w.toNat + 1) * 2 ^ (64 * n) := by rw [Nat.add_mul]; omega
    _ ≤ 2 ^ 64 * 2 ^ (64 * n) := Nat.mul_le_mul_right _ hw

theorem rdL_lt (row : Vector Limb 8) (k n : Nat) : rdL row k n < 2 ^ (64 * n) := by
  induction n with
  | zero => simp [rdL]
  | succ n ih => exact add_limb_lt _ ih

/-- Reading a register whose limbs are defined gives its value, whatever the free values are. -/
theorem rdL_eq_of_definedValue {row : Vector Limb 8} {n x : Nat} (h : definedValue row n = some x) (k : Nat) :
    rdL row k n = x := by
  induction n generalizing x with
  | zero => simpa [definedValue, rdL] using h
  | succ n ih =>
    unfold definedValue at h
    split at h
    · rename_i y w hy hw
      cases h
      simp [rdL, ih hy, hw, readLimb]
    · cases h

theorem touchesUndef_of_definedValue {row : Vector Limb 8} {n x : Nat} (h : definedValue row n = some x) :
    touchesUndef row n = false := by
  induction n generalizing x with
  | zero => rfl
  | succ n ih =>
    unfold definedValue at h
    split at h
    · rename_i y w hy hw
      simp [touchesUndef, ih hy, hw]
    · cases h

/-- Limb `i` of a number below 2^(64n), put back in its place, with the limbs below it. -/
theorem mod_limb_succ (x n : Nat) :
    x % 2 ^ (64 * (n + 1)) = x % 2 ^ (64 * n) + (limbOf x n).toNat * 2 ^ (64 * n) := by
  rw [two_pow_limb_succ, Nat.mul_comm (2 ^ 64), Nat.mod_mul]
  simp [limbOf, BitVec.toNat_ofNat, Nat.mul_comm]

/-- A row whose limb `i` is limb `i` of `x`, for every `i < n`, holds `x` modulo 2^(64n). -/
theorem definedValue_eq_mod {row : Vector Limb 8} {n x : Nat} (h : ∀ i < n, limbAt row i = .word (limbOf x i)) :
    definedValue row n = some (x % 2 ^ (64 * n)) := by
  induction n with
  | zero => simp [definedValue, Nat.mod_one]
  | succ n ih =>
    rw [definedValue, ih fun i hi => h i (by omega), h n (by omega), mod_limb_succ]

theorem value_of_limbs {s : State} {r : Reg} {n x : Nat} (h : ∀ i < n, s.limb r i = .word (limbOf x i)) :
    s.value r n = some (x % 2 ^ (64 * n)) := definedValue_eq_mod h

/-- `wr_L` then `rd_L` (spec/00_scope.md R12). -/
theorem value_wrL (r : Reg) (n x : Nat) (s : State) (hn : n ≤ 8) :
    (wrL r n x s).value r n = some (x % 2 ^ (64 * n)) :=
  value_of_limbs fun i hi => by simp [limb_wrL _ _ _ _ _ _ hn, hi]

theorem value_congr {s t : State} {r : Reg} {n : Nat} (h : ∀ i < n, s.limb r i = t.limb r i) :
    s.value r n = t.value r n := by
  unfold State.value
  induction n with
  | zero => rfl
  | succ n ih =>
    have e : limbAt s.v[r] n = limbAt t.v[r] n := h n (by omega)
    rw [definedValue, definedValue, ih fun i hi => h i (by omega), e]

/-! ### Operands -/

theorem sourceValue_toNat (s : State) (r : Reg) (n k : Nat) (hn : n ≤ 8) :
    (sourceValue s (some (r, n)) k).toNat = rdL s.v[r] k n := by
  simp only [sourceValue, BitVec.toNat_ofNat]
  exact Nat.mod_eq_of_lt (Nat.lt_of_lt_of_le (rdL_lt s.v[r] k n) (Nat.pow_le_pow_right (by decide) (by omega)))

theorem rdL_mod (row : Vector Limb 8) (k n m : Nat) (hm : m ≤ n) : rdL row k n % 2 ^ (64 * m) = rdL row k m := by
  induction n with
  | zero =>
    obtain rfl : m = 0 := by omega
    simp [rdL]
  | succ n ih =>
    rcases Nat.lt_or_ge n m with h | h
    · obtain rfl : m = n + 1 := by omega
      exact Nat.mod_eq_of_lt (rdL_lt ..)
    · have e : 64 * n = 64 * (n - m) + 64 * m := by omega
      rw [rdL, e, Nat.pow_add, ← Nat.mul_assoc, Nat.add_mul_mod_self_right, ih h]

/-- Limb `i` of an operand is the limb that is read. -/
theorem limbOf_rdL (row : Vector Limb 8) (k n i : Nat) (hi : i < n) :
    limbOf (rdL row k n) i = readLimb (limbAt row i) (k + i) := by
  have h1 := mod_limb_succ (rdL row k n) i
  rw [rdL_mod _ _ _ _ (by omega), rdL_mod _ _ _ _ (by omega), rdL] at h1
  have h2 : 0 < 2 ^ (64 * i) := Nat.two_pow_pos _
  exact BitVec.eq_of_toNat_eq (Nat.eq_of_mul_eq_mul_right h2 (by omega)).symm

end Sys2Proof.Machine
end

