-- ==== Sys2Proof/Laws/Command.lean ====
section
/-! SUPPORT. What a command does, said once: every meaning is one `command` with its own checks and progress, so claims
over all commands need no case split of their own. -/

namespace Sys2Proof.Machine

/-- The first failing check of those that read the command word and BYTELEN. -/
def wordCheck (s : State) : Instr → Option Cause
  | .zero _ => none
  | .ldw _ => none
  | .ldb _ => checkBytes s.bytelen
  | .add _ _ _ la lb => checkAccumulator la lb
  | .sub _ _ _ la lb => checkEqualLengths la lb
  | .cmp _ _ la lb => checkEqualLengths la lb
  | .shl _ _ shamt la => checkShift shamt la
  | .shr _ _ shamt la => checkShift shamt la
  | .bitAnd _ _ _ la lb => checkEqualLengths la lb
  | .bitOr _ _ _ la lb => checkEqualLengths la lb
  | .bitXor _ _ _ la lb => checkEqualLengths la lb
  | .bitNot _ _ _ => none
  | .mul _ _ _ la lb => (checkEqualLengths la lb).or (checkPow2 la)
  | .mulf rd rd2 _ _ la lb => (checkDests rd rd2).or ((checkEqualLengths la lb).or (checkPow2 la))
  | .div _ _ _ la lb => checkEqualLengths la lb
  | .rem _ _ _ la lb => checkEqualLengths la lb
  | .divr rd rd2 _ _ la lb => (checkDests rd rd2).or (checkEqualLengths la lb)
  | .smp _ _ _ => none

/-- The check of the operand values. -/
def valueCheck : Instr → Latch → Option Cause
  | .div .. => checkDivisor
  | .rem .. => checkDivisor
  | .divr .. => checkDivisor
  | .smp .. => checkBound
  | .zero .. => noCheck
  | .ldw .. => noCheck
  | .ldb .. => noCheck
  | .add .. => noCheck
  | .sub .. => noCheck
  | .cmp .. => noCheck
  | .shl .. => noCheck
  | .shr .. => noCheck
  | .bitAnd .. => noCheck
  | .bitOr .. => noCheck
  | .bitXor .. => noCheck
  | .bitNot .. => noCheck
  | .mul .. => noCheck
  | .mulf .. => noCheck


/-- Every meaning is one `command`. -/
theorem exec_eq_command (i : Instr) : ∃ f : Latch → State → State, ∀ s, exec i s = command i (wordCheck s i) (valueCheck i) f s := by
  cases i <;> exact ⟨_, fun _ => rfl⟩

/-- A command always answers a next state: no meaning stops. -/
theorem exec_next (i : Instr) (s : State) : ∃ t, exec i s = .next t := by
  obtain ⟨f, h⟩ := exec_eq_command i
  exact ⟨_, h s⟩

/-- A faulted unit ignores the command (spec/10_state.md R23). -/
theorem exec_of_fault {s : State} (i : Instr) (h : s.fault = true) : exec i s = .next s := by
  obtain ⟨f, hf⟩ := exec_eq_command i
  simp [hf, command, h]

/-- On a ready unit the command is offered (spec/60_exceptions.md R98.3). -/
theorem exec_of_ready {s : State} (i : Instr) (h : s.Ready) :
    exec i s = .next (issue i (wordCheck s i) (valueCheck i) s) := by
  obtain ⟨f, hf⟩ := exec_eq_command i
  simp [hf, command, h.1, h.2]

/-- What offering a command does: it takes the fault of its first failing check, or it is accepted. -/
theorem issue_cases (i : Instr) (pre : Option Cause) (check : Latch → Option Cause) (s : State) :
    (∃ k, pre = some k ∧ issue i pre check s = takeCommandFault k (cmdValue i) i s) ∨
    (∃ k, pre = none ∧ check (latchOf i s) = some k ∧
      issue i pre check s = takeCommandFault k (cmdValue i) i (noteReads i s)) ∨
    (pre = none ∧ check (latchOf i s) = none ∧
      issue i pre check s = { noteReads i s with pending := some (latchOf i s), sampler := none }) := by
  unfold issue
  split
  · exact .inl ⟨_, rfl, rfl⟩
  · split
    · rename_i hk
      exact .inr (.inl ⟨_, rfl, hk, rfl⟩)
    · rename_i hk
      exact .inr (.inr ⟨rfl, hk, rfl⟩)

/-- Acceptance of a command that fails no check (spec/60_exceptions.md R98.3). -/
theorem issue_accepts {i : Instr} {check : Latch → Option Cause} {s : State} (h : check (latchOf i s) = none) :
    issue i none check s = { noteReads i s with pending := some (latchOf i s), sampler := none } := by
  simp [issue, h]

/-! ### The progress of each command in flight -/

/-- The progress of each command in flight, as a function of the latch. Every command but SMP completes. -/
def progressOf (i : Instr) (p : Latch) (s : State) : State :=
  match i with
  | .zero rd => complete (wrL rd 8 0 s)
  | .ldw rd => complete (wrL rd 8 p.data.toNat s)
  | .ldb rd => complete (wrL rd 8 (bytesValue p.bytebuf p.bytelen.toNat) s)
  | .add rd _ _ la _ =>
    complete { wrL rd (limbs la) ((p.a.toNat + p.b.toNat) % 2 ^ (64 * limbs la)) s with
      c := carryOut (limbs la) p.a.toNat p.b.toNat }
  | .sub rd _ _ la _ =>
    complete { wrL rd (limbs la) (((p.a.toNat : Int) - p.b.toNat) % 2 ^ (64 * limbs la)).toNat s with
      c := borrowOut p.a.toNat p.b.toNat }
  | .cmp _ _ la _ => complete { s with cmpr := compareLimbs p.a.toNat p.b.toNat (limbs la) }
  | .shl rd _ shamt la => complete (wrL rd (limbs la) (p.a.toNat * 2 ^ shamt.toNat % 2 ^ (64 * limbs la)) s)
  | .shr rd _ shamt la => complete (wrL rd (limbs la) (p.a.toNat / 2 ^ shamt.toNat) s)
  | .bitAnd rd _ _ la _ => lanewise (fun x y => x &&& y) rd (limbs la) p s
  | .bitOr rd _ _ la _ => lanewise (fun x y => x ||| y) rd (limbs la) p s
  | .bitXor rd _ _ la _ => lanewise (fun x y => x ^^^ y) rd (limbs la) p s
  | .bitNot rd _ la => complete (writeWords rd (limbs la) (fun j => ~~~ limbOf p.a.toNat j) s)
  | .mul rd _ _ la _ => complete (wrL rd (limbs la) (p.a.toNat * p.b.toNat % 2 ^ (64 * limbs la)) s)
  | .mulf rd rd2 _ _ la _ =>
    complete (wrL rd2 (limbs la) (p.a.toNat * p.b.toNat / 2 ^ (64 * limbs la))
      (wrL rd (limbs la) (p.a.toNat * p.b.toNat % 2 ^ (64 * limbs la)) s))
  | .div rd _ _ la _ => complete (wrL rd (limbs la) (p.a.toNat / p.b.toNat) s)
  | .rem rd _ _ la _ => complete (wrL rd (limbs la) (p.a.toNat % p.b.toNat) s)
  | .divr rd rd2 _ _ la _ =>
    complete (wrL rd2 (limbs la) (p.a.toNat % p.b.toNat) (wrL rd (limbs la) (p.a.toNat / p.b.toNat) s))
  | .smp rd _ la => sampleProgress rd (limbs la) p s

theorem exec_inFlight {s : State} {p : Latch} (i : Instr) (hf : s.fault = false) (hp : s.pending = some p) :
    exec i s = .next (progressOf i p s) := by
  cases i <;>
    simp only [exec, execZero, execLdw, execLdb, execAdd, execSub, execCmp, execShl, execShr, execBitAnd, execBitOr,
      execBitXor, execBitNot, execMul, execMulf, execDiv, execRem, execDivr, execSmp, command, hf, hp,
      Bool.false_eq_true, if_false, progressOf]

/-- An operand of the latch is the operand as the command reads it. -/
theorem latchOf_a {i : Instr} {s : State} {r : Reg} {la : Len} (h : sourceA i = some (r, limbs la)) :
    (latchOf i s).a.toNat = operandA s r la := by
  simp only [latchOf, h, operandA]
  exact sourceValue_toNat _ _ _ _ (limbs_le la)

theorem latchOf_b {i : Instr} {s : State} {r : Reg} {lb : Len} (h : sourceB i = some (r, limbs lb)) :
    (latchOf i s).b.toNat = operandB s r lb := by
  simp only [latchOf, h, operandB]
  exact sourceValue_toNat _ _ _ _ (limbs_le lb)

@[simp] theorem latchOf_cmd (i : Instr) (s : State) : (latchOf i s).cmd = i := rfl
@[simp] theorem latchOf_data (i : Instr) (s : State) : (latchOf i s).data = s.data := rfl
@[simp] theorem latchOf_bytelen (i : Instr) (s : State) : (latchOf i s).bytelen = s.bytelen := rfl
@[simp] theorem latchOf_bytebuf (i : Instr) (s : State) : (latchOf i s).bytebuf = s.bytebuf := rfl

/-- The state in which a ready unit stands once it has accepted the command `i`. -/
def accepted (i : Instr) (s : State) : State :=
  { noteReads i s with pending := some (latchOf i s), sampler := none }

theorem frame_accepted (i : Instr) {s : State} : Frame [] .noFlag s (accepted i s) := by
  constructor <;> intros <;> simp [accepted, State.limb]

theorem sameRandom_accepted (i : Instr) (s : State) : SameRandom s (accepted i s) := by
  constructor <;> simp [accepted]

/-- A ready unit runs a command that fails no check to completion, in two turns. -/
theorem completes_of {i : Instr} {s u : State} (h : s.Ready) (hw : wordCheck s i = none)
    (hv : valueCheck i (latchOf i s) = none) (hu : exec i (accepted i s) = .next u) (hb : u.pending = none) :
    Completes i s u :=
  ⟨accepted i s, by rw [exec_of_ready i h, hw, issue_accepts hv, accepted], by simp [accepted, State.busy],
    frame_accepted i, sameRandom_accepted i s, hu, by simp [State.busy, hb]⟩

theorem accepted_ready {s : State} (i : Instr) (h : s.Ready) :
    (accepted i s).fault = false ∧ (accepted i s).pending = some (latchOf i s) :=
  ⟨by simp [accepted, h.1], rfl⟩

/-! ### Completion, once for each shape of destination -/

/-- A command that writes the words `g` to the low `n` limbs of one register, and one flag. -/
theorem completes_one (i : Instr) {s : State} {rd : Reg} {n : Nat} (f : FlagName) (g : Nat → Word) (cv : Bool) (mv : CmpResult)
    (h : s.Ready) (hw : wordCheck s i = none) (hv : valueCheck i (latchOf i s) = none) (hn : n ≤ 8)
    (hu : exec i (accepted i s) = .next (complete { writeWords rd n g (accepted i s) with c := cv, cmpr := mv }))
    (hc : f ≠ .carry → cv = s.c) (hm : f ≠ .comparison → mv = s.cmpr) :
    ∃ u, Completes i s u ∧ (∀ j < n, u.limb rd j = .word (g j)) ∧ u.c = cv ∧ u.cmpr = mv ∧ Frame [(rd, n)] f s u ∧
      SameRandom s u := by
  refine ⟨_, completes_of h hw hv hu rfl, fun j hj => ?_, rfl, rfl, ?_, ?_⟩
  · exact (limb_writeWords rd rd n g j (accepted i s) hn).trans (by simp [hj])
  · constructor
    · intro r j hd
      have hd := hd _ (List.mem_singleton.mpr rfl)
      refine (limb_writeWords rd r n g j (accepted i s) hn).trans ?_
      rw [if_neg, (frame_accepted i).limb _ _ (by simp)]
      rintro ⟨rfl, h2⟩
      have := hd rfl
      omega
    · exact hc
    · exact hm
    all_goals simp [accepted]
  · constructor <;> simp [accepted]

/-- A command that writes two numbers to the low `n` limbs of two registers. -/
theorem completes_two (i : Instr) {s : State} {rd rd2 : Reg} {n : Nat} {x y : Nat}
    (h : s.Ready) (hw : wordCheck s i = none) (hv : valueCheck i (latchOf i s) = none) (hn : n ≤ 8) (hne : rd ≠ rd2)
    (hu : exec i (accepted i s) = .next (complete (wrL rd2 n y (wrL rd n x (accepted i s))))) :
    ∃ u, Completes i s u ∧ u.value rd n = some (x % 2 ^ (64 * n)) ∧ u.value rd2 n = some (y % 2 ^ (64 * n)) ∧
      Frame [(rd, n), (rd2, n)] .noFlag s u ∧ SameRandom s u := by
  refine ⟨_, completes_of h hw hv hu rfl, ?_, value_wrL rd2 n y _ hn, ?_, ?_⟩
  · refine value_of_limbs fun j hj => ?_
    refine (limb_wrL rd2 rd n y j _ hn).trans ?_
    rw [if_neg (fun e => hne e.1), limb_wrL _ _ _ _ _ _ hn, if_pos ⟨rfl, hj⟩]
  · constructor
    · intro r j hd
      have h1 := hd (rd, n) (by simp)
      have h2 := hd (rd2, n) (by simp)
      refine (limb_wrL rd2 r n y j _ hn).trans ?_
      rw [if_neg, limb_wrL _ _ _ _ _ _ hn, if_neg, (frame_accepted i).limb _ _ (by simp)]
      · rintro ⟨rfl, h3⟩
        have := h1 rfl
        omega
      · rintro ⟨rfl, h3⟩
        have := h2 rfl
        omega
    all_goals simp [accepted]
  · constructor <;> simp [accepted]

/-- A command without a flag that writes the words `g` to the low limbs of one register. -/
theorem completes_words (i : Instr) {s : State} {rd : Reg} {n : Nat} {g : Nat → Word}
    (h : s.Ready) (hw : wordCheck s i = none) (hv : valueCheck i (latchOf i s) = none) (hn : n ≤ 8)
    (hu : exec i (accepted i s) = .next (complete (writeWords rd n g (accepted i s)))) :
    ∃ u, Completes i s u ∧ (∀ j < n, u.limb rd j = .word (g j)) ∧ Frame [(rd, n)] .noFlag s u ∧ SameRandom s u := by
  obtain ⟨u, h1, h2, -, -, h5, h6⟩ :=
    completes_one i .noFlag g (accepted i s).c (accepted i s).cmpr h hw hv hn hu (by simp [accepted]) (by simp [accepted])
  exact ⟨u, h1, h2, h5, h6⟩

/-- A command without a flag that writes the number `x` to the low limbs of one register. -/
theorem completes_value (i : Instr) {s : State} {rd : Reg} {n x : Nat}
    (h : s.Ready) (hw : wordCheck s i = none) (hv : valueCheck i (latchOf i s) = none) (hn : n ≤ 8)
    (hu : exec i (accepted i s) = .next (complete (wrL rd n x (accepted i s)))) :
    ∃ u, Completes i s u ∧ u.value rd n = some (x % 2 ^ (64 * n)) ∧ Frame [(rd, n)] .noFlag s u ∧ SameRandom s u := by
  obtain ⟨u, h1, h2, h5, h6⟩ := completes_words i h hw hv hn hu
  exact ⟨u, h1, value_of_limbs h2, h5, h6⟩

theorem operandA_lt (s : State) (rs1 : Reg) (la : Len) : operandA s rs1 la < 2 ^ (64 * limbs la) := rdL_lt ..

theorem operandB_lt (s : State) (rs2 : Reg) (lb : Len) : operandB s rs2 lb < 2 ^ (64 * limbs lb) := rdL_lt ..

theorem exec_accepted (i : Instr) {s : State} (h : s.Ready) :
    exec i (accepted i s) = .next (progressOf i (latchOf i s) (accepted i s)) :=
  exec_inFlight i (accepted_ready i h).1 (accepted_ready i h).2

/-! ### Taking a fault -/

theorem takeFault_c {k : Cause} {w : Word} {ds : List (Reg × Nat)} {f : FlagName} {s : State} (h : f ≠ .carry) :
    (takeFault k w ds f s).c = s.c := by
  cases f <;> simp_all [takeFault, unsettleFlag]

theorem takeFault_cmpr {k : Cause} {w : Word} {ds : List (Reg × Nat)} {f : FlagName} {s : State}
    (h : f ≠ .comparison) : (takeFault k w ds f s).cmpr = s.cmpr := by
  cases f <;> simp_all [takeFault, unsettleFlag]

theorem limb_takeFault (k : Cause) (w : Word) (ds : List (Reg × Nat)) (f : FlagName) (s : State) (q : Reg) (i : Nat) :
    (takeFault k w ds f s).limb q i = (undefDests ds s).limb q i := by simp [State.limb]

end Sys2Proof.Machine
end

