-- ==== Sys2Proof/Laws/Bus.lean ====
section
/-! SUPPORT. The bus and the step: every access answers a next state, and a read changes the read data alone. -/

namespace Sys2Proof.Machine

theorem unitProgress_next (s : State) : ∃ t, unitProgress s = .next t := by
  unfold unitProgress; split
  · exact ⟨_, rfl⟩
  · exact exec_next _ _

theorem offerCommand_next (c : Word) (s : State) : ∃ t, offerCommand c s = .next t := by
  unfold offerCommand; split
  · exact exec_next _ _
  all_goals exact ⟨_, rfl⟩

theorem guardedWrite_next (o : BitVec 10) (s : State) (w : Out) (h : ∃ t, w = .next t) :
    ∃ t, guardedWrite o s w = .next t := by
  unfold guardedWrite; split
  · exact ⟨_, rfl⟩
  · exact h

/-- A host write always answers a next state. -/
theorem busWrite_next (o : BitVec 10) (w : Nat) (v : Word) (s : State) : ∃ t, busWrite o w v s = .next t := by
  unfold busWrite
  repeat' split
  all_goals first
    | exact ⟨_, rfl⟩
    | exact guardedWrite_next _ _ _ ⟨_, rfl⟩
    | exact guardedWrite_next _ _ _ (offerCommand_next _ _)

/-- A host read changes the bus's read data and the counter of free values alone. -/
theorem busRead_eq (o : BitVec 10) (w : Nat) (s : State) :
    busRead o w s = { s with rdata := (busRead o w s).rdata, draws := (busRead o w s).draws } := by
  unfold busRead
  repeat' split
  all_goals first | rfl | (unfold readVwin; repeat' split)
  all_goals rfl

/-- What each offset of the window selects (spec/20_memory.md R40): read once, so that no proof unfolds the map. -/
inductive Selects (o : BitVec 10) : WindowReg → Prop where
  | cmd (h : o.toNat = 0x000) : Selects o .cmd
  | status (h : o.toNat = 0x008) : Selects o .status
  | data (h : o.toNat = 0x010) : Selects o .data
  | bytelen (h : o.toNat = 0x018) : Selects o .bytelen
  | fcmd (h : o.toNat = 0x020) : Selects o .fcmd
  | ctrl (h : o.toNat = 0x028) : Selects o .ctrl
  | param (h : o.toNat = 0x030) : Selects o .param
  | bytebuf (j : Nat) (hj : j < 8) (h : o.toNat = 0x040 + 8 * j) : Selects o (.bytebuf j)
  | vwin (r i : Fin 8) (h : o.toNat = 0x100 + 0x40 * r.val + 8 * i.val) : Selects o (.vwin r i.val)
  | reserved (h : o.toNat = 0x038 ∨ (0x080 ≤ o.toNat ∧ o.toNat < 0x100) ∨ 0x300 ≤ o.toNat) : Selects o .reserved

theorem windowReg_selects {o : BitVec 10} (h : o.toNat % 8 = 0) : Selects o (windowReg o) := by
  unfold windowReg windowSlot
  repeat' split
  · exact .cmd (by omega)
  · exact .status (by omega)
  · exact .data (by omega)
  · exact .bytelen (by omega)
  · exact .fcmd (by omega)
  · exact .ctrl (by omega)
  · exact .param (by omega)
  · exact .reserved (by omega)
  · exact .bytebuf _ (by omega) (by omega)
  · exact .reserved (by omega)
  · exact .vwin (Fin.ofNat 8 ((o.toNat / 8 - 32) / 8)) ⟨(o.toNat / 8 - 32) % 8, by omega⟩ (by simp; omega)
  · exact .reserved (by omega)

/-- The map is one to one where it is not reserved: an offset that `Selects` gives a register is the one it selects. -/
theorem windowReg_eq {o : BitVec 10} {r : WindowReg} (h8 : o.toNat % 8 = 0) (h : Selects o r) : windowReg o = r := by
  have hs := windowReg_selects h8
  generalize windowReg o = q at hs
  cases hs <;> cases h <;> first
    | rfl
    | omega
    | (congr 1; omega)
    | (congr 1 <;> (first | (apply Fin.ext) | skip) <;> omega)

theorem conforming_eq_true {o : BitVec 10} {w : Nat} (h : conforming o w = true) : w = 8 ∧ o.toNat % 8 = 0 := by
  simpa [conforming] using h

/-- Everything a host write can do: nothing; a reset; the BUSY_WRITE fault; or, on a ready unit, the offer of a command
or new contents of DATA, BYTELEN or BYTEBUF. -/
theorem busWrite_cases (o : BitVec 10) (w : Nat) (v : Word) (s : State) :
    busWrite o w v s = .next s ∨
    (o = 0x028 ∧ w = 8 ∧ v.getLsbD 0 = true ∧ busWrite o w v s = .next (unitReset s)) ∨
    (∃ p, s.fault = false ∧ s.pending = some p ∧ busWrite o w v s = .next (busyWriteFault o p s)) ∨
    (o = 0 ∧ w = 8 ∧ s.Ready ∧ busWrite o w v s = offerCommand v s) ∨
    (s.Ready ∧ ∃ d l b, busWrite o w v s = .next { s with data := d, bytelen := l, bytebuf := b }) := by
  by_cases hc : conforming o w = true
  · obtain ⟨rfl, h8⟩ := conforming_eq_true hc
    have hs := windowReg_selects h8
    simp only [busWrite, hc, if_true]
    cases hr : windowReg o <;> rw [hr] at hs <;> simp only
    case status => exact .inl trivial
    case fcmd => exact .inl trivial
    case param => exact .inl trivial
    case reserved => exact .inl trivial
    case vwin => exact .inl trivial
    case ctrl =>
      have h : o = 0x028 := BitVec.eq_of_toNat_eq (by cases hs; assumption)
      cases hv : v.getLsbD 0
      · exact .inl (by simp)
      · exact .inr (.inl (by simp [h]))
    all_goals
      cases hf : s.fault
      · cases hp : s.pending with
        | some p => exact .inr (.inr (.inl (by simp [guardedWrite, hp])))
        | none => first
          | exact .inr (.inr (.inr (.inr ⟨⟨hf, hp⟩, _, _, _, by simp only [guardedWrite, hp]; rfl⟩)))
          | (have h : o = 0 := BitVec.eq_of_toNat_eq (by cases hs; assumption)
             exact .inr (.inr (.inr (.inl (by simp [guardedWrite, hp, h, State.Ready, hf])))))
      · exact .inl (by simp)
  · exact .inl (by simp [busWrite, hc])

end Sys2Proof.Machine
end

