-- ==== Sys2Proof/Laws/Decode.lean ====
section
/-! SUPPORT. The fields of an encoded word, and the opcode numbers as a table. -/

namespace Sys2Proof

theorem Opcode.ofBits_bits (op : Opcode) : Opcode.ofBits op.bits = some op := by cases op <;> rfl

theorem Opcode.mem_all (op : Opcode) : op ∈ Opcode.all := by cases op <;> simp [Opcode.all]

theorem Opcode.bits_of_ofBits {b : BitVec 6} {op : Opcode} (h : Opcode.ofBits b = some op) : op.bits = b := by
  simpa using List.find?_some h

theorem Opcode.bits_ne_of_ofBits_none {b : BitVec 6} (h : Opcode.ofBits b = none) (op : Opcode) : op.bits ≠ b := by
  simpa using List.find?_eq_none.mp h op op.mem_all

/-- Every fixed bit of a table row lies under its mask, and OPC does. -/
theorem Opcode.matchBits_and_mask (op : Opcode) : op.matchBits &&& op.mask = op.matchBits := by
  cases op <;> decide

/-- A word that matches a table row has that row's OPC. -/
theorem opc_of_match {op : Opcode} {w : BitVec 32} (h : w &&& op.mask = op.matchBits) : w.extractLsb' 0 6 = op.bits := by
  have e : (w &&& op.mask).extractLsb' 0 6 = op.matchBits.extractLsb' 0 6 := by rw [h]
  have m : op.mask.extractLsb' 0 6 = BitVec.allOnes 6 := by cases op <;> decide
  have k : op.matchBits.extractLsb' 0 6 = op.bits := by cases op <;> decide
  rwa [BitVec.extractLsb'_and, m, k, BitVec.and_allOnes] at e

/-- The fields of a word in format R (spec/30_encoding.md R56). -/
theorem formatR_fields (op : Opcode) (rd rs1 rs2 rd2 : Reg) (la lb : Len) :
    let w := formatR op rd rs1 rs2 rd2 la lb
    w.extractLsb' 0 6 = op.bits ∧ fieldRD w = rd ∧ fieldRS1 w = rs1 ∧ fieldRS2 w = rs2 ∧ fieldRD2 w = rd2 ∧
      fieldLA w = la ∧ fieldLB w = lb := by
  simp only [fieldRD, fieldRS1, fieldRS2, fieldRD2, fieldLA, fieldLB, field3, formatR]
  refine ⟨?_, ?_, ?_, ?_, ?_, ?_, ?_⟩ <;>
    simp (disch := decide) only [BitVec.extractLsb'_append_eq_of_le, BitVec.extractLsb'_append_eq_of_add_le,
      Nat.sub_self, Nat.reduceSub, BitVec.extractLsb'_eq_self]

/-- The fields of a word in format S (spec/30_encoding.md R57). -/
theorem formatS_fields (op : Opcode) (rd rs1 : Reg) (la : Len) (shamt : BitVec 11) :
    let w := formatS op rd rs1 la shamt
    w.extractLsb' 0 6 = op.bits ∧ fieldRD w = rd ∧ fieldRS1 w = rs1 ∧ fieldLA w = la ∧ fieldSHAMT w = shamt := by
  simp only [fieldRD, fieldRS1, fieldSHAMT, fieldLA, field3, formatS]
  refine ⟨?_, ?_, ?_, ?_, ?_⟩ <;>
    simp (disch := decide) only [BitVec.extractLsb'_append_eq_of_le, BitVec.extractLsb'_append_eq_of_add_le,
      Nat.sub_self, Nat.reduceSub, BitVec.extractLsb'_eq_self]

/-- The high half of a CMD value that offers a command is 0, and its low half is the word (R55). -/
theorem cmdValue_halves (i : Instr) :
    (cmdValue i).extractLsb' 32 32 = 0 ∧ (cmdValue i).extractLsb' 0 32 = encode i := by
  unfold cmdValue
  constructor
  · ext j hj
    simp
  · ext j hj
    have : j < 64 := by omega
    simp [this, BitVec.getLsbD_eq_getElem hj]

end Sys2Proof
end

