-- ==== Sys2Proof/Laws/Effects.lean ====
section
/-! SUPPORT. What a step may do to limbs and flags, said once. -/

namespace Sys2Proof.Machine

/-- The progress of a command leaves every limb outside its destinations as it was. -/
theorem progress_limb (i : Instr) (p : Latch) (s : State) (r : Reg) (j : Nat) (h : ∀ d ∈ destsOf i, d.1 = r → d.2 ≤ j) : (progressOf i p s).limb r j = s.limb r j := by
  have wl : ∀ rd n g (q : State), n ≤ 8 → (rd = r → n ≤ j) → (writeWords rd n g q).limb r j = q.limb r j := by
    intro rd n g q hn hh
    rw [limb_writeWords _ _ _ _ _ _ hn, if_neg]
    rintro ⟨e, h2⟩; have := hh e.symm; omega
  cases i <;> simp only [destsOf, List.mem_cons, List.not_mem_nil, or_false, forall_eq_or_imp, forall_eq] at h <;> simp only [progressOf, lanewise, limb_complete, wrL]
  case mulf => exact (wl _ _ _ _ (limbs_le _) h.2).trans (wl _ _ _ _ (limbs_le _) h.1)
  case divr => exact (wl _ _ _ _ (limbs_le _) h.2).trans (wl _ _ _ _ (limbs_le _) h.1)
  case add => rw [limb_withC]; exact wl _ _ _ _ (limbs_le _) h
  case sub => rw [limb_withC]; exact wl _ _ _ _ (limbs_le _) h
  case zero => exact wl _ _ _ _ (le_refl 8) h
  case ldw => exact wl _ _ _ _ (le_refl 8) h
  case ldb => exact wl _ _ _ _ (le_refl 8) h
  case cmp => rfl
  case smp =>
    unfold sampleProgress; simp only; split
    · exact wl _ _ _ _ (limbs_le _) h
    · split <;> rfl
  all_goals exact wl _ _ _ _ (limbs_le _) h

theorem progress_c (i : Instr) (p : Latch) (s : State) (h : flagOf i ≠ .carry) : (progressOf i p s).c = s.c := by
  cases i <;> simp [flagOf] at h <;> simp [progressOf, lanewise]
  unfold sampleProgress; simp only; split
  · simp
  · split <;> simp

theorem progress_cmpr (i : Instr) (p : Latch) (s : State) (h : flagOf i ≠ .comparison) : (progressOf i p s).cmpr = s.cmpr := by
  cases i <;> simp [flagOf] at h <;> simp [progressOf, lanewise]
  unfold sampleProgress; simp only; split
  · simp
  · split <;> simp

/-- What a step may do to limbs and flags: a reset; nothing; the progress or the fault of the command in flight; or the
fault of an offered command. -/
theorem step_writes {s t : State} (he : step s = .next t) :
   resetsNext s = true ∨
   (t.v = s.v ∧ t.c = s.c ∧ t.cmpr = s.cmpr) ∨
   (∃ p q, s.pending = some p ∧ (q.v = s.v ∧ q.c = s.c ∧ q.cmpr = s.cmpr) ∧ (t = progressOf p.cmd p q ∨ ∃ k c, t = takeFault k c (destsOf p.cmd) (flagOf p.cmd) q)) ∨
   (∃ i q k c, offersNext s i ∧ (q.v = s.v ∧ q.c = s.c ∧ q.cmpr = s.cmpr) ∧ t = takeFault k c (destsOf i) (flagOf i) q) := by
  have up : ∀ q : State, q.pending = s.pending → (q.v = s.v ∧ q.c = s.c ∧ q.cmpr = s.cmpr) → unitProgress q = .next t → (t.v = s.v ∧ t.c = s.c ∧ t.cmpr = s.cmpr) ∨
   (∃ p q, s.pending = some p ∧ (q.v = s.v ∧ q.c = s.c ∧ q.cmpr = s.cmpr) ∧ (t = progressOf p.cmd p q ∨ ∃ k c, t = takeFault k c (destsOf p.cmd) (flagOf p.cmd) q)) := by
    intro q hp hq he
    unfold unitProgress at he
    split at he
    · cases he; exact .inl hq
    · rename_i p hp'
      cases hf : q.fault
      · rw [exec_inFlight _ hf hp'] at he; cases he
        exact .inr ⟨p, q, hp ▸ hp', hq, .inl rfl⟩
      · rw [exec_of_fault _ hf] at he; cases he; exact .inl hq
  unfold step at he
  cases hi : s.inputs with
  | nil => simp only [hi] at he; rcases up s rfl ⟨rfl, rfl, rfl⟩ he with h | h
           · exact .inr (.inl h)
           · exact .inr (.inr (.inl h))
  | cons e rest =>
    simp only [hi] at he
    cases e with
    | tick => rcases up _ (by rfl) (by exact ⟨rfl, rfl, rfl⟩) he with h | h
              · exact .inr (.inl h)
              · exact .inr (.inr (.inl h))
    | read o w =>
      simp only [react, busAccess] at he; split at he
      · cases he
      · cases he; rw [busRead_eq]; exact .inr (.inl ⟨rfl, rfl, rfl⟩)
    | write o w v =>
      simp only [react, busAccess] at he; split at he
      · cases he
      · rcases busWrite_cases o w v {s with inputs := rest} with e | ⟨e1, e2, e3, -⟩ | ⟨p, e1, e2, e⟩ | ⟨e1, e2, e3, e⟩ | ⟨-, d, l, b, e⟩
        · rw [e] at he; cases he; exact .inr (.inl ⟨rfl, rfl, rfl⟩)
        · refine .inl ?_; simp only [resetsNext, hi, e1, e2, e3]; simp
        · rw [e] at he; cases he
          refine .inr (.inr (.inl ⟨p, _, e2, ?_, .inr ⟨_, _, rfl⟩⟩)); exact ⟨rfl, rfl, rfl⟩
        · rw [e] at he
          unfold offerCommand at he
          split at he
          · rename_i i hd
            rw [exec_of_ready _ e3] at he; cases he
            rcases issue_cases i (wordCheck _ i) (valueCheck i) {s with inputs := rest} with ⟨k, h1, e⟩ | ⟨k, h1, h2, e⟩ | ⟨h1, h2, e⟩ 
            · rw [e]; exact .inr (.inr (.inr ⟨i, {s with inputs := rest}, k, _, ⟨v, rest, by rw [hi, e1, e2]; rfl, .inl hd⟩, ⟨rfl, rfl, rfl⟩, rfl⟩))
            · rw [e]; exact .inr (.inr (.inr ⟨i, _, k, _, ⟨v, rest, by rw [hi, e1, e2]; rfl, .inl hd⟩, ⟨by simp, by simp, by simp⟩, rfl⟩))
            · rw [e]; exact .inr (.inl ⟨by simp, by simp, by simp⟩)
          · cases he; exact .inr (.inl ⟨rfl, rfl, rfl⟩)
          · rename_i i hd; cases he; exact .inr (.inr (.inr ⟨i, {s with inputs := rest}, _, _, ⟨v, rest, by rw [hi, e1, e2]; rfl, .inr hd⟩, ⟨rfl, rfl, rfl⟩, rfl⟩))
        · rw [e] at he; cases he; exact .inr (.inl ⟨rfl, rfl, rfl⟩)
    | offer w => cases he; exact .inr (.inl ⟨rfl, rfl, rfl⟩)
    | rstHigh => refine .inl ?_; simp [resetsNext, hi]
    | rstLow => cases he; exact .inr (.inl ⟨rfl, rfl, rfl⟩)

end Sys2Proof.Machine
end

