-- ==== Sys2Proof/Laws/Sample.lean ====
section
/-! SUPPORT. What the sampler's loop keeps: the bound's top limb, the candidate's limbs, and one turn of the loop. -/

namespace Sys2Proof.Machine

/-- `msbIndex` is the m of spec/00_scope.md R14: the least m with `x < 2 ^ m`. -/
theorem msbIndex_eq {x m : Nat} (h1 : 2 ^ (m - 1) ≤ x) (h2 : x < 2 ^ m) : msbIndex x = m := by
  have h0 : x ≠ 0 := Nat.ne_of_gt (Nat.lt_of_lt_of_le (Nat.two_pow_pos _) h1)
  have a := (Nat.le_log2 h0).mpr h1
  have b := (Nat.log2_lt h0).mpr h2
  rw [msbIndex, if_neg h0]
  omega

/-- t and the mask of spec/47_sample.md R89, from m. -/
theorem topLimb_eq {x m : Nat} (h1 : 2 ^ (m - 1) ≤ x) (h2 : x < 2 ^ m) : topLimb x = (m + 63) / 64 - 1 := by
  rw [topLimb, msbIndex_eq h1 h2]

theorem topMask_eq {x m : Nat} (h1 : 2 ^ (m - 1) ≤ x) (h2 : x < 2 ^ m) :
    topMask x = BitVec.ofNat 64 (2 ^ (m - 64 * ((m + 63) / 64 - 1)) - 1) := by
  rw [topMask, topLimb_eq h1 h2, msbIndex_eq h1 h2]

/-- A bound that is not 0 has its m. -/
theorem msbIndex_spec {x : Nat} (h : x ≠ 0) : 2 ^ (msbIndex x - 1) ≤ x ∧ x < 2 ^ msbIndex x := by
  rw [msbIndex, if_neg h]
  exact ⟨Nat.log2_self_le h, Nat.lt_log2_self⟩

theorem topLimb_bound {x n : Nat} (h0 : x ≠ 0) (h : x < 2^(64*n)) : topLimb x < n := by
  simp only [topLimb, msbIndex, if_neg h0]
  have := (Nat.log2_lt h0).mpr h
  omega

theorem limbOf_zero_above {x i : Nat} (h : topLimb x < i) : limbOf x i = 0 := by
  unfold limbOf
  rw [Nat.div_eq_of_lt]; rfl
  by_cases h0 : x = 0
  · subst h0; exact Nat.two_pow_pos _
  · have h1 : x < 2^(Nat.log2 x + 1) := Nat.lt_log2_self
    refine lt_of_lt_of_le h1 (Nat.pow_le_pow_right (by simp) ?_)
    simp only [topLimb, msbIndex, if_neg h0] at h
    omega

theorem wordAt_setWord (ws : Vector Word 8) (i : Nat) (w : Word) (j : Nat) : wordAt (setWord ws i w) j = if i = j ∧ i < 8 then w else wordAt ws j := by
  unfold wordAt setWord
  by_cases h : i < 8 <;> by_cases hj : j < 8 <;> simp [h, hj, Vector.getElem_set]
  · omega

theorem start_ok (x : Nat) : (Sampler.start x).Ok x := by
  refine ⟨le_refl _, fun i hi => by simp [Sampler.start, wordAt], fun _ => ⟨by simp [Sampler.start], fun i hi => ?_⟩, fun h => by simp [Sampler.start] at h⟩
  rw [limbOf_zero_above (by simp [Sampler.start] at hi; omega)]
  simp [Sampler.start, wordAt]

theorem draw_ok {x : Nat} {g : Sampler} (h : g.Ok x) (hx : topLimb x < 8) (w : Word) : (g.draw x w).Ok x := by
  unfold Sampler.draw
  split
  · exact h
  · rename_i i hl
    simp only
    generalize hw : (if i = topLimb x then w &&& topMask x else w) = w'
    have hle := h.left
    split
    · exact start_ok x
    · rename_i h1
      split
      · exact start_ok x
      · rename_i h2
        refine ⟨by simp; omega, fun j hj => ?_, fun he => ?_, fun he => ?_⟩
        · simp only [wordAt_setWord]; rw [if_neg (by omega)]; exact h.high j hj
        · simp at he h2
          refine ⟨by simp; have := h2; by_contra hc; simp at hc; exact absurd he.2 (h2 hc he.1), fun j hj => ?_⟩
          simp only [wordAt_setWord]
          split
          · rename_i hij; rw [← hij.1]; exact he.2
          · rename_i hij; exact (h.tied he.1).2 j (by simp at hj; omega)
        · by_cases hge : g.eq = true
          · simp [hge] at he h1
            refine ⟨i, by simp, ?_, fun j hj => ?_⟩
            · have hi8 : i < 8 := by omega
              simp only [wordAt_setWord, hi8, and_self, if_true]
              rw [BitVec.lt_def]; rw [BitVec.le_def] at h1
              exact Nat.lt_of_le_of_ne h1 (fun e => he (BitVec.eq_of_toNat_eq e))
            · simp only [wordAt_setWord]; rw [if_neg (by omega)]; exact (h.tied hge).2 j (by omega)
          · simp at hge
            obtain ⟨j, hj1, hj2, hj3⟩ := h.below hge
            refine ⟨j, by simp; omega, ?_, fun k hk => ?_⟩
            · simp only [wordAt_setWord]; rw [if_neg (by omega)]; exact hj2
            · simp only [wordAt_setWord]; rw [if_neg (by omega)]; exact hj3 k hk

theorem wordsValue_lt_pow (ws : Vector Word 8) (n : Nat) : wordsValue ws n < 2^(64*n) := by
  induction n with
  | zero => simp [wordsValue]
  | succ n ih => exact add_limb_lt _ ih

theorem wordsValue_lt (ws : Vector Word 8) (x : Nat) (j n : Nat) (hj : j < n) (h1 : wordAt ws j < limbOf x j) (h2 : ∀ i, j < i → wordAt ws i = limbOf x i) : wordsValue ws n < x % 2^(64*n) := by
  induction n with
  | zero => omega
  | succ n ih =>
    rw [wordsValue, mod_limb_succ]
    have low := wordsValue_lt_pow ws n
    by_cases hjn : j = n
    · subst hjn
      have := BitVec.lt_def.mp h1
      have : (wordAt ws j).toNat * 2^(64*j) + 2^(64*j) ≤ (limbOf x j).toNat * 2^(64*j) := by rw [← Nat.succ_mul]; exact Nat.mul_le_mul_right _ this
      omega
    · rw [h2 n (by omega)]
      have := ih (by omega); omega

end Sys2Proof.Machine
end

