-- ==== Sys2Proof/Laws/Inv.lean ====
section
/-! SUPPORT. What keeps the invariant `State.Inv`: one lemma per shared operation. -/

namespace Sys2Proof.Machine

/-- The invariant speaks of the unit's own fields only. -/
theorem inv_env {s t : State} (h : s.Inv)
  (hv : t.v = s.v) (hf : t.fault = s.fault) (hc : t.c = s.c) (hm : t.cmpr = s.cmpr) (hk : t.fcause = s.fcause) (hd : t.fcmd = s.fcmd)
  (hda : t.data = s.data) (hbl : t.bytelen = s.bytelen) (hbb : t.bytebuf = s.bytebuf) (hp : t.pending = s.pending) (hs : t.sampler = s.sampler) (hr : t.rst = s.rst) : t.Inv := by
  obtain ⟨a1, a2, a3, a4, a5, a6, a7, a8⟩ := h
  refine ⟨by rw [hf, hk]; exact a1, by rw [hk]; exact a2, by rw [hf, hd]; exact a3, by rw [hf, hp]; exact a4, ?_, by rw [hs, hp]; exact a6, by rw [hp]; exact a7, by rw [hs, hp]; exact a8⟩
  intro h
  obtain ⟨b1, b2, b3, b4, b5, b6, b7, b8, b9, b10, b11, b12⟩ := a5 (hr ▸ h)
  exact ⟨fun r i => (limb_congr hv r i).trans (b1 r i), by simpa [State.busy, hp] using b2, hf.trans b3, hc.trans b4, hm.trans b5, hk.trans b6, hd.trans b7, hda.trans b8, hbl.trans b9, fun j => by rw [hbb]; exact b10 j, hp.trans b11, hs.trans b12⟩

theorem resetValues_unitReset (s : State) : ResetValues (unitReset s) := by
  constructor <;> try rfl
  · intro r i; simp [State.limb, allUndef, limbAt]
  · intro j; simp [wordAt]

theorem inv_takeFault {s : State} {k c ds f} (h : s.rst = false) : (takeFault k c ds f s).Inv := by
  constructor <;> simp [h]
  · cases k <;> decide
  · cases k <;> decide

theorem inv_unitReset (s : State) : (unitReset s).Inv := by
  constructor <;> simp
  exact fun _ => resetValues_unitReset s

theorem toNat_eq_zero {w : Nat} {x : BitVec w} (h : x.toNat = 0) : x = 0 := BitVec.eq_of_toNat_eq (by simpa using h)

/-- A completion keeps the invariant. -/
theorem inv_complete {s : State} {u : State} (h : s.Inv) (hr : s.rst = false) (hf : u.fault = s.fault) (hk : u.fcause = s.fcause) (hd : u.fcmd = s.fcmd) (hur : u.rst = s.rst) : (complete u).Inv := by
  obtain ⟨a1, a2, a3, a4, a5, a6, a7, a8⟩ := h
  refine ⟨by simpa [hf, hk] using a1, by simpa [hk] using a2, by simpa [hf, hd] using a3, by simp, ?_, by simp, by simp, by simp⟩
  intro h; simp [hur, hr] at h

theorem wordCheck_wf {s : State} {i : Instr} (h : wordCheck s i = none) : i.WellFormed := by
  have ml : ∀ la : Len, limbs la ∈ [1,2,4,8] → la ∈ multiplierLengths := by decide
  have le : ∀ la lb : Len, limbs la = limbs lb → la = lb := fun la lb h => Fin.ext (by simpa [limbs] using h)
  cases i <;> simp only [wordCheck, Instr.WellFormed, Instr.wellFormed, checkAccumulator, checkEqualLengths, checkPow2, checkShift, checkDests, Option.or_eq_none_iff, ite_eq_left_iff, ite_eq_right_iff, reduceCtorEq, imp_false, not_not, decide_eq_true_eq] at h ⊢
  case add => simpa [limbs] using h
  case sub => exact le _ _ h
  case cmp => exact le _ _ h
  case shl => exact h
  case shr => exact h
  case bitAnd => exact le _ _ h
  case bitOr => exact le _ _ h
  case bitXor => exact le _ _ h
  case mul => exact ⟨le _ _ h.1, ml _ h.2⟩
  case mulf => exact ⟨h.1, le _ _ h.2.1, ml _ h.2.2⟩
  case div => exact le _ _ h
  case rem => exact le _ _ h
  case divr => exact ⟨h.1, le _ _ h.2⟩

theorem accepted_latchOf {s : State} {i : Instr} (h : wordCheck s i = none) (hv : valueCheck i (latchOf i s) = none) : (latchOf i s).Accepted := by
  refine ⟨wordCheck_wf h, ?_, ?_, ?_, ?_, ?_⟩
  · cases i <;> simp [Instr.opcode]
    simpa [wordCheck, checkBytes] using h
  · cases i <;> simp [Instr.opcode]
    all_goals simpa [valueCheck, checkDivisor] using hv
  · cases i <;> simp [Instr.opcode]
    simpa [valueCheck, checkBound] using hv
  · cases i <;> rintro r n ⟨⟩ <;> (rw [latchOf_a rfl]; exact operandA_lt ..)
  · cases i <;> rintro r n ⟨⟩ <;> (rw [latchOf_b rfl]; exact operandB_lt ..)

theorem inv_issue {s : State} (i : Instr) (h : s.Inv) (hr : s.rst = false) (hf : s.fault = false) :
  (issue i (wordCheck s i) (valueCheck i) s).Inv := by
  rcases issue_cases i (wordCheck s i) (valueCheck i) s with ⟨k, -, e⟩ | ⟨k, -, -, e⟩ | ⟨h1, h2, e⟩
  · rw [e]; exact inv_takeFault hr
  · rw [e]; exact inv_takeFault (by simpa using hr)
  · rw [e]
    obtain ⟨a1, a2, a3, a4, a5, a6, a7, a8⟩ := h
    refine ⟨by simpa using a1, by simpa using a2, by simpa using a3, by simp [hf], by simp [hr], by simp, ?_, by simp⟩
    rintro p ⟨⟩
    exact accepted_latchOf h1 h2

theorem inv_progress {s : State} {p : Latch} (h : s.Inv) (hp : s.pending = some p) (hr : s.rst = false) : (progressOf p.cmd p s).Inv := by
  cases hc : p.cmd <;> simp only [progressOf]
  case smp rd rs1 la =>
    unfold sampleProgress
    have hacc := h.accepted p hp
    have hw := hacc.widthA rs1 (limbs la) (by rw [hc]; rfl)
    have hb : p.a.toNat ≠ 0 := by
      have := hacc.bound (by rw [hc]; rfl)
      exact fun e => this (toNat_eq_zero e)
    have ht := topLimb_bound hb hw
    have hl := limbs_le la
    simp only
    split
    · exact inv_complete h hr rfl rfl rfl rfl
    · split
      · exact h
      · obtain ⟨a1, a2, a3, a4, a5, a6, a7, a8⟩ := h
        refine ⟨a1, a2, a3, a4, by simp [hr], fun _ => ⟨p, hp, by rw [hc]; rfl⟩, a7, ?_⟩
        rintro q g hq ⟨⟩
        obtain rfl : p = q := by simpa [hp] using hq
        refine draw_ok ?_ (by omega) _
        cases hs : s.sampler with
        | none => exact start_ok _
        | some g => exact a8 p g hp hs
  all_goals exact inv_complete h hr rfl rfl rfl rfl

theorem inv_exec_inFlight {s t : State} {p : Latch} (h : s.Inv) (hp : s.pending = some p) (he : exec p.cmd s = .next t) : t.Inv := by
  have hf : s.fault = false := by
    by_contra hc; simp at hc; have := h.halted hc; simp [hp] at this
  have hr : s.rst = false := by
    by_contra hc; simp at hc; have := (h.held hc).latch; simp [hp] at this
  rw [exec_inFlight _ hf hp] at he
  cases he; exact inv_progress h hp hr

theorem inv_unitProgress {s t : State} (h : s.Inv) (he : unitProgress s = .next t) : t.Inv := by
  unfold unitProgress at he; split at he
  · cases he; exact h
  · rename_i p hp; exact inv_exec_inFlight h hp he

theorem inv_offer {s t : State} {c} (h : s.Inv) (hr : s.rst = false) (hrd : s.Ready) (he : offerCommand c s = .next t) : t.Inv := by
  unfold offerCommand at he; split at he
  · rw [exec_of_ready _ hrd] at he; cases he; exact inv_issue _ h hr hrd.1
  all_goals cases he; exact inv_takeFault hr

theorem inv_guarded {s t : State} {o : BitVec 10} {w : Out} (hr : s.rst = false) (h : s.pending = none → w = .next t → t.Inv) (he : guardedWrite o s w = .next t) : t.Inv := by
  unfold guardedWrite at he; split at he
  · cases he; exact inv_takeFault hr
  · exact h (by assumption) he

theorem inv_busWrite {s t : State} {o w v} (h : s.Inv) (hr : s.rst = false) (he : busWrite o w v s = .next t) : t.Inv := by
  unfold busWrite at he
  split at he
  · split at he
    · cases he; split
      · exact inv_unitReset s
      · exact h
    all_goals first
    | (cases he; exact h)
    | (split at he
       · cases he; exact h
       · rename_i hf; simp at hf
         first
         | exact inv_guarded hr (fun hp he => inv_offer h hr ⟨hf, hp⟩ he) he
         | exact inv_guarded hr (fun hp he => by
             cases he
             obtain ⟨a1, a2, a3, a4, a5, a6, a7, a8⟩ := h
             exact ⟨a1, a2, a3, a4, by simp [hr], a6, a7, a8⟩) he)
  · cases he; exact h

/-- What an input does keeps the invariant. -/
theorem inv_react {q t : State} {e : Input} (h' : q.Inv) (he : react e q = .next t) : t.Inv := by
  cases e with
  | tick => exact inv_unitProgress h' he
  | read o w =>
    simp only [react, busAccess] at he
    split at he
    · cases he
    · cases he
      rw [busRead_eq]
      exact inv_env h' rfl rfl rfl rfl rfl rfl rfl rfl rfl rfl rfl rfl
  | write o w v =>
    simp only [react, busAccess] at he
    split at he
    · cases he
    · rename_i hr; simp at hr; exact inv_busWrite h' hr he
  | offer w => cases he; exact inv_env h' rfl rfl rfl rfl rfl rfl rfl rfl rfl rfl rfl rfl
  | rstHigh =>
    cases he
    have := inv_unitReset q
    obtain ⟨a1, a2, a3, a4, a5, a6, a7, a8⟩ := this
    refine ⟨a1, a2, a3, a4, fun _ => ?_, a6, a7, a8⟩
    obtain ⟨b1, b2, b3, b4, b5, b6, b7, b8, b9, b10, b11, b12⟩ := resetValues_unitReset q
    exact ⟨b1, b2, b3, b4, b5, b6, b7, b8, b9, b10, b11, b12⟩
  | rstLow =>
    cases he
    obtain ⟨a1, a2, a3, a4, a5, a6, a7, a8⟩ := h'
    exact ⟨a1, a2, a3, a4, by simp, a6, a7, a8⟩

end Sys2Proof.Machine
end

