-- ==== Sys2Proof/Laws/PerInstr.lean ====
section
/-! SUPPORT. Laws made once for every constructor of `Instr`, each a fact about the command as syntax. -/

namespace Sys2Proof.Laws

/-- The command's word matches its own row of spec/opcode_table.json: OPC is the row's, and every bit that
spec/30_encoding.md R60 reserves is 0. -/
def MatchesItsRow.Statement (i : Instr) : Prop := encode i &&& i.opcode.mask = i.opcode.matchBits

theorem MatchesItsRow.zero (a) : MatchesItsRow.Statement (.zero a) := by
  refine BitVec.eq_of_getLsbD_eq fun j hj => ?_
  simp only [encode, formatR, Instr.opcode, Opcode.mask, Opcode.matchBits, Opcode.bits, BitVec.getLsbD_and,
    BitVec.getLsbD_append]
  interval_cases j <;> simp

theorem MatchesItsRow.ldw (a) : MatchesItsRow.Statement (.ldw a) := by
  refine BitVec.eq_of_getLsbD_eq fun j hj => ?_
  simp only [encode, formatR, Instr.opcode, Opcode.mask, Opcode.matchBits, Opcode.bits, BitVec.getLsbD_and,
    BitVec.getLsbD_append]
  interval_cases j <;> simp

theorem MatchesItsRow.ldb (a) : MatchesItsRow.Statement (.ldb a) := by
  refine BitVec.eq_of_getLsbD_eq fun j hj => ?_
  simp only [encode, formatR, Instr.opcode, Opcode.mask, Opcode.matchBits, Opcode.bits, BitVec.getLsbD_and,
    BitVec.getLsbD_append]
  interval_cases j <;> simp

theorem MatchesItsRow.add (a b c d e) : MatchesItsRow.Statement (.add a b c d e) := by
  refine BitVec.eq_of_getLsbD_eq fun j hj => ?_
  simp only [encode, formatR, Instr.opcode, Opcode.mask, Opcode.matchBits, Opcode.bits, BitVec.getLsbD_and,
    BitVec.getLsbD_append]
  interval_cases j <;> simp

theorem MatchesItsRow.sub (a b c d e) : MatchesItsRow.Statement (.sub a b c d e) := by
  refine BitVec.eq_of_getLsbD_eq fun j hj => ?_
  simp only [encode, formatR, Instr.opcode, Opcode.mask, Opcode.matchBits, Opcode.bits, BitVec.getLsbD_and,
    BitVec.getLsbD_append]
  interval_cases j <;> simp

theorem MatchesItsRow.cmp (a b c d) : MatchesItsRow.Statement (.cmp a b c d) := by
  refine BitVec.eq_of_getLsbD_eq fun j hj => ?_
  simp only [encode, formatR, Instr.opcode, Opcode.mask, Opcode.matchBits, Opcode.bits, BitVec.getLsbD_and,
    BitVec.getLsbD_append]
  interval_cases j <;> simp

theorem MatchesItsRow.shl (a b c d) : MatchesItsRow.Statement (.shl a b c d) := by
  refine BitVec.eq_of_getLsbD_eq fun j hj => ?_
  simp only [encode, formatS, Instr.opcode, Opcode.mask, Opcode.matchBits, Opcode.bits, BitVec.getLsbD_and,
    BitVec.getLsbD_append]
  interval_cases j <;> simp

theorem MatchesItsRow.shr (a b c d) : MatchesItsRow.Statement (.shr a b c d) := by
  refine BitVec.eq_of_getLsbD_eq fun j hj => ?_
  simp only [encode, formatS, Instr.opcode, Opcode.mask, Opcode.matchBits, Opcode.bits, BitVec.getLsbD_and,
    BitVec.getLsbD_append]
  interval_cases j <;> simp

theorem MatchesItsRow.bitAnd (a b c d e) : MatchesItsRow.Statement (.bitAnd a b c d e) := by
  refine BitVec.eq_of_getLsbD_eq fun j hj => ?_
  simp only [encode, formatR, Instr.opcode, Opcode.mask, Opcode.matchBits, Opcode.bits, BitVec.getLsbD_and,
    BitVec.getLsbD_append]
  interval_cases j <;> simp

theorem MatchesItsRow.bitOr (a b c d e) : MatchesItsRow.Statement (.bitOr a b c d e) := by
  refine BitVec.eq_of_getLsbD_eq fun j hj => ?_
  simp only [encode, formatR, Instr.opcode, Opcode.mask, Opcode.matchBits, Opcode.bits, BitVec.getLsbD_and,
    BitVec.getLsbD_append]
  interval_cases j <;> simp

theorem MatchesItsRow.bitXor (a b c d e) : MatchesItsRow.Statement (.bitXor a b c d e) := by
  refine BitVec.eq_of_getLsbD_eq fun j hj => ?_
  simp only [encode, formatR, Instr.opcode, Opcode.mask, Opcode.matchBits, Opcode.bits, BitVec.getLsbD_and,
    BitVec.getLsbD_append]
  interval_cases j <;> simp

theorem MatchesItsRow.bitNot (a b c) : MatchesItsRow.Statement (.bitNot a b c) := by
  refine BitVec.eq_of_getLsbD_eq fun j hj => ?_
  simp only [encode, formatR, Instr.opcode, Opcode.mask, Opcode.matchBits, Opcode.bits, BitVec.getLsbD_and,
    BitVec.getLsbD_append]
  interval_cases j <;> simp

theorem MatchesItsRow.mul (a b c d e) : MatchesItsRow.Statement (.mul a b c d e) := by
  refine BitVec.eq_of_getLsbD_eq fun j hj => ?_
  simp only [encode, formatR, Instr.opcode, Opcode.mask, Opcode.matchBits, Opcode.bits, BitVec.getLsbD_and,
    BitVec.getLsbD_append]
  interval_cases j <;> simp

theorem MatchesItsRow.mulf (a b c d e f) : MatchesItsRow.Statement (.mulf a b c d e f) := by
  refine BitVec.eq_of_getLsbD_eq fun j hj => ?_
  simp only [encode, formatR, Instr.opcode, Opcode.mask, Opcode.matchBits, Opcode.bits, BitVec.getLsbD_and,
    BitVec.getLsbD_append]
  interval_cases j <;> simp

theorem MatchesItsRow.div (a b c d e) : MatchesItsRow.Statement (.div a b c d e) := by
  refine BitVec.eq_of_getLsbD_eq fun j hj => ?_
  simp only [encode, formatR, Instr.opcode, Opcode.mask, Opcode.matchBits, Opcode.bits, BitVec.getLsbD_and,
    BitVec.getLsbD_append]
  interval_cases j <;> simp

theorem MatchesItsRow.rem (a b c d e) : MatchesItsRow.Statement (.rem a b c d e) := by
  refine BitVec.eq_of_getLsbD_eq fun j hj => ?_
  simp only [encode, formatR, Instr.opcode, Opcode.mask, Opcode.matchBits, Opcode.bits, BitVec.getLsbD_and,
    BitVec.getLsbD_append]
  interval_cases j <;> simp

theorem MatchesItsRow.divr (a b c d e f) : MatchesItsRow.Statement (.divr a b c d e f) := by
  refine BitVec.eq_of_getLsbD_eq fun j hj => ?_
  simp only [encode, formatR, Instr.opcode, Opcode.mask, Opcode.matchBits, Opcode.bits, BitVec.getLsbD_and,
    BitVec.getLsbD_append]
  interval_cases j <;> simp

theorem MatchesItsRow.smp (a b c) : MatchesItsRow.Statement (.smp a b c) := by
  refine BitVec.eq_of_getLsbD_eq fun j hj => ?_
  simp only [encode, formatR, Instr.opcode, Opcode.mask, Opcode.matchBits, Opcode.bits, BitVec.getLsbD_and,
    BitVec.getLsbD_append]
  interval_cases j <;> simp

end Sys2Proof.Laws
end

