-- ==== Sys2Proof/Tests/Slice0.lean ====
section
/-! SUPPORT. Tests of the model on small states, their expected results taken from spec/95_test_vectors.md and the rules,
and one witness for the hypotheses of each statement. `decide +kernel` evaluates in the kernel alone. -/

namespace Sys2Proof.Tests

open Sys2Proof.Machine

-- Each kernel evaluation waits for the declarations before it: with one thread waiting per theorem, memory runs out.
set_option Elab.async false

/-! ### Helpers -/

/-- The state after one turn of a command. -/
def turn (i : Instr) (s : State) : State :=
  match exec i s with
  | .next t => t
  | _ => s

/-- The state after acceptance and completion. -/
def ran (i : Instr) (s : State) : State := turn i (turn i s)

/-- The state after one step. -/
def stepped (s : State) : State :=
  match step s with
  | .next t => t
  | _ => s

/-- V0 = `x`, V1 = `y`, every other limb UNDEF. -/
def two (x y : Nat) : State := wrL 1 8 y (wrL 0 8 x State.reset)

/-- 2^512 - 1. -/
def ones : Nat := 2 ^ 512 - 1

/-- `s` with `e` as the next input. -/
def before (e : Input) (s : State) : State := { s with inputs := [e] }

/-- An SMP v1, v0 in flight below the bound 5, with the words `ws` offered. -/
def sampling (ws : List Word) : State := { turn (.smp 1 0 7) (two 5 0) with rngQueue := ws }

/-- An ADD v2, v0, v1 in flight. -/
def adding : State := turn (.add 2 0 1 7 7) (two 10 12)

/-- The latch of a state with a command in flight. -/
def latch (s : State) : Latch := s.pending.getD (latchOf (.zero 0) s)

/-- The unit after the fault vector F-8: DIV by zero. -/
def faulted : State := turn (.div 2 0 1 7 7) (two 1 0)

/-- Does a step answer a next state? -/
def answersNext (o : Out) : Bool :=
  match o with
  | .next _ => true
  | _ => false

theorem step_eq {s : State} (h : answersNext (step s) = true) : step s = .next (stepped s) := by
  unfold stepped
  generalize step s = o at h ⊢
  cases o <;> first | rfl | cases h

theorem exec_eq {i : Instr} {s : State} (h : answersNext (exec i s) = true) : exec i s = .next (turn i s) := by
  unfold turn
  generalize exec i s = o at h ⊢
  cases o <;> first | rfl | cases h

/-! ### WellFormed: each check refuses an ill-formed command -/

theorem test_illFormed_destConflict : ¬ (Instr.mulf 2 2 0 1 0 0).WellFormed ∧ ¬ (Instr.divr 2 2 0 1 0 0).WellFormed := by
  decide

theorem test_illFormed_accumulator : ¬ (Instr.add 0 0 1 0 1).WellFormed ∧ (Instr.add 0 0 1 1 0).WellFormed := by decide

theorem test_illFormed_lengths :
    ¬ (Instr.sub 2 0 1 7 3).WellFormed ∧ ¬ (Instr.cmp 0 1 7 3).WellFormed ∧ ¬ (Instr.bitAnd 2 0 1 7 3).WellFormed ∧
    ¬ (Instr.bitOr 2 0 1 7 3).WellFormed ∧ ¬ (Instr.bitXor 2 0 1 7 3).WellFormed ∧ ¬ (Instr.mul 2 0 1 3 1).WellFormed ∧
    ¬ (Instr.mulf 2 3 0 1 3 1).WellFormed ∧ ¬ (Instr.div 2 0 1 7 3).WellFormed ∧ ¬ (Instr.rem 2 0 1 7 3).WellFormed ∧
    ¬ (Instr.divr 2 3 0 1 7 3).WellFormed := by decide

theorem test_illFormed_pow2 : ¬ (Instr.mul 2 0 1 2 2).WellFormed ∧ ¬ (Instr.mulf 2 3 0 1 4 4).WellFormed := by decide

theorem test_illFormed_shift :
    ¬ (Instr.shl 1 0 512 7).WellFormed ∧ ¬ (Instr.shr 1 0 64 0).WellFormed ∧ (Instr.shr 1 0 63 0).WellFormed := by decide

/-! ### Decoding: words written out from spec/30_encoding.md R56 to R60, and words of spec/95_test_vectors.md -/

/-- Format D: 23 zeros, RD = 3, OPC = 0x01 (V-WRP-1). -/
theorem test_decode_zero : decodeWord (0#23 ++ 0b011#3 ++ 0b000001#6) = .ok (.zero 3) := by decide
/-- V-WRP-3. -/
theorem test_decode_ldw : decode 0x00000042 = .ok (.ldw 1) := by decide
/-- V-WRP-5. -/
theorem test_decode_ldb : decode 0x00000083 = .ok (.ldb 2) := by decide
/-- Format R: LB = 5, LA = 6, RD2 = 0, RS2 = 3, RS1 = 4, RD = 2, OPC = 0x08. -/
theorem test_decode_add :
    decodeWord (0#8 ++ 0b101#3 ++ 0b110#3 ++ 0b000#3 ++ 0b011#3 ++ 0b100#3 ++ 0b010#3 ++ 0b001000#6) = .ok (.add 2 4 3 6 5) := by
  decide
/-- V-SUB-7. -/
theorem test_decode_sub : decode 0x00001089 = .ok (.sub 2 0 1 0 0) := by decide
/-- Format R with RD = 0: LB = LA = 1, RS2 = 5, RS1 = 6, OPC = 0x0C. -/
theorem test_decode_cmp :
    decodeWord (0#8 ++ 0b001#3 ++ 0b001#3 ++ 0b000#3 ++ 0b101#3 ++ 0b110#3 ++ 0b000#3 ++ 0b001100#6) = .ok (.cmp 6 5 1 1) := by
  decide
/-- Format S: SHAMT = 72, LA = 7, six zeros, RS1 = 0, RD = 1, OPC = 0x10 (V-SHL-2, 0x091C0050). -/
theorem test_decode_shl :
    decodeWord (0b00001001000#11 ++ 0b111#3 ++ 0b000000#6 ++ 0b000#3 ++ 0b001#3 ++ 0b010000#6) = .ok (.shl 1 0 72 7) ∧
    decode 0x091C0050 = .ok (.shl 1 0 72 7) := by decide
/-- V-SHR-4. -/
theorem test_decode_shr : decode 0x07E00051 = .ok (.shr 1 0 63 0) := by decide
/-- Format R: LB = LA = 7, RS2 = 1, RS1 = 0, RD = 2, OPC = 0x14 (V-BIT-1, 0x00FC1094). -/
theorem test_decode_and :
    decodeWord (0#8 ++ 0b111#3 ++ 0b111#3 ++ 0b000#3 ++ 0b001#3 ++ 0b000#3 ++ 0b010#3 ++ 0b010100#6) = .ok (.bitAnd 2 0 1 7 7) := by
  decide
/-- V-BIT-11. -/
theorem test_decode_or : decode 0x00FC1215 = .ok (.bitOr 0 1 1 7 7) := by decide
/-- V-BIT-10. -/
theorem test_decode_xor : decode 0x00FC0016 = .ok (.bitXor 0 0 0 7 7) := by decide
/-- V-BIT-5. -/
theorem test_decode_not : decode 0x00000097 = .ok (.bitNot 2 0 0) := by decide
/-- V-MUL-9. -/
theorem test_decode_mul : decode 0x00241098 = .ok (.mul 2 0 1 1 1) := by decide
/-- Format R: LB = LA = 0, RD2 = 3, RS2 = 1, RS1 = 0, RD = 2, OPC = 0x19 (V-MUL-5, 0x00019099). -/
theorem test_decode_mulf :
    decodeWord (0#8 ++ 0b000#3 ++ 0b000#3 ++ 0b011#3 ++ 0b001#3 ++ 0b000#3 ++ 0b010#3 ++ 0b011001#6) =
      .ok (.mulf 2 3 0 1 0 0) := by decide
/-- V-DIV-9. -/
theorem test_decode_div : decode 0x0000109C = .ok (.div 2 0 1 0 0) := by decide
/-- V-DIV-2. -/
theorem test_decode_rem : decode 0x00FC109D = .ok (.rem 2 0 1 7 7) := by decide
/-- Format R: LB = LA = 7, RD2 = 1, RS2 = 1, RS1 = 0, RD = 0, OPC = 0x1E (V-DIV-10, 0x00FC901E). -/
theorem test_decode_divr :
    decodeWord (0#8 ++ 0b111#3 ++ 0b111#3 ++ 0b001#3 ++ 0b001#3 ++ 0b000#3 ++ 0b000#3 ++ 0b011110#6) =
      .ok (.divr 0 1 0 1 7 7) := by decide
/-- Format R: LA = 1, RS1 = 0, RD = 1, OPC = 0x20 (V-SMP-3, 0x00040060). -/
theorem test_decode_smp :
    decodeWord (0#8 ++ 0b000#3 ++ 0b001#3 ++ 0b000#3 ++ 0b000#3 ++ 0b000#3 ++ 0b001#3 ++ 0b100000#6) = .ok (.smp 1 0 1) := by
  decide
/-- F-1a, F-1b, F-1c, F-2a, F-2e. -/
theorem test_decode_refusals :
    decode 0 = .error .illegalOpcode ∧ decode 0x3F = .error .illegalOpcode ∧
    decode 0x0000000100FC1088 = .error .illegalOpcode ∧ decode 0x00FC9088 = .error (.reservedField (.add 2 0 1 7 7)) ∧
    decode 0x4B1C1050 = .error (.reservedField (.shl 1 0 600 7)) := by decide

/-! ### Commands -/

/-- V-WRP-1. -/
theorem test_zero : (ran (.zero 3) State.reset).value 3 8 = some 0 := by decide +kernel
/-- V-WRP-3: no sign extension. -/
theorem test_ldw :
    (ran (.ldw 1) { State.reset with data := 0xFFFFFFFFFFFFFFFF }).value 1 8 = some (2 ^ 64 - 1) := by decide +kernel
/-- V-WRP-5. -/
theorem test_ldb :
    (ran (.ldb 2) { State.reset with bytelen := 3, bytebuf := setWord State.reset.bytebuf 0 0xAABBCCDDEEFF0011 }).value 2 8 =
      some 0xAABBCC := by decide +kernel
/-- F-7. -/
theorem test_ldb_oversize : (turn (.ldb 1) { State.reset with bytelen := 65 }).fcause = 7 := by decide +kernel
/-- V-ADD-2. -/
theorem test_add_wraps :
    (ran (.add 2 0 1 7 7) (two ones 1)).value 2 8 = some 0 ∧ (ran (.add 2 0 1 7 7) (two ones 1)).c = true := by decide +kernel
/-- V-ADD-6: the destination is a source, and L_B < L_A. -/
theorem test_add_into_source : (ran (.add 0 0 1 1 0) (two (2 ^ 64 - 1) 5)).value 0 8 = some (2 ^ 64 + 4) := by decide +kernel
/-- V-SUB-2. -/
theorem test_sub_borrows :
    (ran (.sub 2 0 1 7 7) (two 3 5)).value 2 8 = some (2 ^ 512 - 2) ∧ (ran (.sub 2 0 1 7 7) (two 3 5)).c = true := by
  decide +kernel
/-- V-SUB-5. -/
theorem test_sub_crosses_limbs : (ran (.sub 2 0 1 7 7) (two (2 ^ 64) 1)).value 2 8 = some (2 ^ 64 - 1) := by decide +kernel
/-- V-CMP-2. -/
theorem test_cmp_greater : (ran (.cmp 0 1 7 7) (two (2 ^ 64) (2 ^ 64 - 1))).cmpr = .greater := by decide +kernel
/-- V-CMP-5: only limb 0 is compared. -/
theorem test_cmp_short : (ran (.cmp 0 1 0 0) (two (2 ^ 64 + 3) 3)).cmpr = .equal := by decide +kernel
/-- V-SHL-3. -/
theorem test_shl : (ran (.shl 1 0 72 7) (two 0xFF 0)).value 1 8 = some (0xFF * 2 ^ 72) := by decide +kernel
/-- V-SHL-7: limbs 1 to 7 keep their value. -/
theorem test_shl_short : (ran (.shl 1 0 1 0) (two (2 ^ 63) (2 ^ 65))).value 1 8 = some (2 ^ 65) := by decide +kernel
/-- V-SHR-3. -/
theorem test_shr : (ran (.shr 2 1 511 7) (two 0 ones)).value 2 8 = some 1 := by decide +kernel
/-- F-6b. -/
theorem test_shr_range : (turn (.shr 1 0 64 0) (two 1 1)).fcause = 6 ∧ (turn (.shr 1 0 64 0) (two 1 1)).limb 1 0 = .undef := by
  decide +kernel
/-- V-BIT-1. -/
theorem test_and : (ran (.bitAnd 2 0 1 7 7) (two 0xF0F0 0xFF00)).value 2 8 = some 0xF000 := by decide +kernel
/-- V-BIT-2. -/
theorem test_or : (ran (.bitOr 2 0 1 7 7) (two 0xF0F0 0xFF00)).value 2 8 = some 0xFFF0 := by decide +kernel
/-- V-BIT-3. -/
theorem test_xor : (ran (.bitXor 2 0 1 7 7) (two 0xF0F0 0xFF00)).value 2 8 = some 0x0FF0 := by decide +kernel
/-- V-BIT-4 and V-BIT-5. -/
theorem test_not :
    (ran (.bitNot 1 0 7) (two 0 0)).value 1 8 = some ones ∧ (ran (.bitNot 1 0 0) (two 0 0)).value 1 8 = some (2 ^ 64 - 1) := by
  decide +kernel
/-- V-MUL-2. -/
theorem test_mul : (ran (.mul 2 0 1 7 7) (two ones ones)).value 2 8 = some 1 := by decide +kernel
/-- F-4c: LENGTH_MISMATCH comes before LENGTH_NOT_POW2. -/
theorem test_mul_priority : (turn (.mul 2 0 1 2 1) (two 1 1)).fcause = 4 := by decide +kernel
/-- V-MUL-7. -/
theorem test_mulf :
    (ran (.mulf 2 3 0 1 7 7) (two ones ones)).value 2 8 = some 1 ∧
    (ran (.mulf 2 3 0 1 7 7) (two ones ones)).value 3 8 = some (2 ^ 512 - 2) := by decide +kernel
/-- F-3a. -/
theorem test_mulf_conflict : (turn (.mulf 2 2 0 1 7 7) (two 1 1)).fcause = 3 := by decide +kernel
/-- V-DIV-11. -/
theorem test_div : (ran (.div 2 0 1 7 7) (two 45 7)).value 2 8 = some 6 := by decide +kernel
/-- F-8. -/
theorem test_div_zero : faulted.fcause = 8 ∧ faulted.fcmd = 0x00FC109C ∧ faulted.limb 2 7 = .undef := by decide +kernel
/-- V-DIV-12. -/
theorem test_rem : (ran (.rem 2 0 1 7 7) (two 45 7)).value 2 8 = some 3 := by decide +kernel
/-- V-DIV-4 (spec/90_conflicts.md C1). -/
theorem test_divr :
    (ran (.divr 2 3 0 1 7 7) (two (2 ^ 511 + 5) (2 ^ 511 + 1))).value 2 8 = some 1 ∧
    (ran (.divr 2 3 0 1 7 7) (two (2 ^ 511 + 5) (2 ^ 511 + 1))).value 3 8 = some 4 := by decide +kernel
/-- V-DIV-10: both sources are read before either write. -/
theorem test_divr_into_sources :
    (ran (.divr 0 1 0 1 7 7) (two 45 7)).value 0 8 = some 6 ∧ (ran (.divr 0 1 0 1 7 7) (two 45 7)).value 1 8 = some 3 := by
  decide +kernel
/-- The last word of V-SMP-1: 3 is accepted, and the next turn writes it. -/
theorem test_smp_accepts : (ran (.smp 1 0 7) (sampling [3])).value 1 8 = some 3 := by decide +kernel
/-- The third word of V-SMP-1: 5 ties with the bound and is rejected. -/
theorem test_smp_rejects_tie : (turn (.smp 1 0 7) (sampling [5])).sampler = some (Sampler.start 5) := by decide +kernel

/-- m, t and mask of V-SMP-7, V-SMP-3 and V-SMP-8. -/
theorem test_smp_topLimb :
    msbIndex 10 = 4 ∧ topLimb 10 = 0 ∧ topMask 10 = 15 ∧ msbIndex (2 ^ 64) = 65 ∧ topLimb (2 ^ 64) = 1 ∧
    topMask (2 ^ 64) = 1 ∧ msbIndex ones = 512 ∧ topLimb ones = 7 ∧ topMask ones = BitVec.allOnes 64 := by decide +kernel

/-! ### The window and the step -/

/-- S-1. -/
theorem test_status_after_reset : (busRead 0x008 8 State.reset).rdata = 0x18 := by decide +kernel
/-- S-9: the STATUS word of F-8, and a write that is ignored. -/
theorem test_faulted_unit :
    (busRead 0x008 8 faulted).rdata = 0x81A ∧ (stepped (before (.write 0x010 8 9) faulted)).data = 0 := by decide +kernel
/-- S-12: C stays 1 after a MUL. -/
theorem test_carry_stays :
    statusWord (ran (.mul 2 0 1 7 7) (ran (.add 2 0 1 7 7) (two ones 1))) = 0x1C := by decide +kernel
/-- F-10. -/
theorem test_busy_write :
    (stepped (before (.write 0x010 8 7) (sampling []))).fcause = 10 ∧
    (stepped (before (.write 0x010 8 7) (sampling []))).fcmd = 0x10 ∧
    (stepped (before (.write 0x010 8 7) (sampling []))).limb 1 7 = .undef ∧
    rngReady (stepped (before (.write 0x010 8 7) (sampling []))) = false := by decide +kernel
/-- The first step of a placed command accepts it. -/
theorem test_withFetchWord :
    decodeTableWord 32 0x00FC1088 = some (.add 2 0 1 7 7) ∧
    ((stepped (State.reset.withFetchWord 32 0x00FC1088)).pending.map Latch.cmd) = some (.add 2 0 1 7 7) := by decide +kernel

/-! ### Witnesses: for every statement with hypotheses, a state and operands that meet them together -/

theorem witness_LegalCommandValuesAreUnique : decode 0x00FC1088 = .ok (.add 2 0 1 7 7) := by decide

/-- One value for each of the four clauses, with the lowest and the highest unassigned opcode for the last. -/
theorem witness_DecodingFollowsTheTable :
    (0x0000000100FC1088#64).extractLsb' 32 32 ≠ 0 ∧ (0x00FC1088#64).extractLsb' 32 32 = 0 ∧
    0x00FC1088#32 &&& Opcode.add.mask = Opcode.add.matchBits ∧
    (0x00FC9088#32).extractLsb' 0 6 = Opcode.add.bits ∧ 0x00FC9088#32 &&& Opcode.add.mask ≠ Opcode.add.matchBits ∧
    (∀ op : Opcode, (0x00000000#32).extractLsb' 0 6 ≠ op.bits) ∧ (∀ op : Opcode, (0x0000003F#32).extractLsb' 0 6 ≠ op.bits) := by
  refine ⟨by decide, by decide, by decide, by decide, by decide, fun op => ?_, fun op => ?_⟩ <;> cases op <;> decide

/-- One input for each clause: a read, a write of another width, and a CMD write. -/
theorem witness_StepRunsTheOfferedCommand :
    (before (.read 0x3F8 8) adding).rst = false ∧ (before (.read 0x3F8 8) adding).inputs = [.read 0x3F8 8] ∧
    (before (.write 0x014 4 1) adding).rst = false ∧ (before (.write 0x014 4 1) adding).inputs = [.write 0x014 4 1] ∧
    (before (cmdWrite 0x00FC1088) (two 10 12)).inputs = [cmdWrite 0x00FC1088] ∧
    (before (cmdWrite 0x00FC1088) (two 10 12)).rst = false ∧ (before (cmdWrite 0x00FC1088) (two 10 12)).Ready ∧
    decode 0x00FC1088 = .ok (.add 2 0 1 7 7) := by decide +kernel

/-- A read and a write while `rst` is high. -/
theorem witness_OnlyAccessDuringResetStops :
    ({ before (.read 0x008 8) State.reset with rst := true } : State).rst = true ∧
    ({ before (.read 0x008 8) State.reset with rst := true } : State).inputs = [.read 0x008 8] ∧
    ({ before (.write 0x028 8 1) State.reset with rst := true } : State).rst = true ∧
    ({ before (.write 0x028 8 1) State.reset with rst := true } : State).inputs = [.write 0x028 8 1] := by decide +kernel

theorem witness_StepAdvancesTheCommandInFlight :
    adding.pending = some (latch adding) ∧ adding.inputs = [] ∧ (before .tick adding).inputs = [.tick] ∧
    (before .tick adding).pending = some (latch adding) := by decide +kernel

/-- An offered value of each kind, and an accepted command. -/
theorem witness_FirstFailingCheckIsReported :
    (two 1 0).Ready ∧ firstCause (two 1 0) (.div 2 0 1 7 7) = some .divZero ∧ firstCause (two 45 7) (.div 2 0 1 7 7) = none ∧
    adding.fault = false ∧ adding.busy = true ∧ exec (.add 2 0 1 7 7) adding = .next (turn (.add 2 0 1 7 7) adding) :=
  ⟨by decide +kernel, by decide +kernel, by decide +kernel, by decide +kernel, by decide +kernel, exec_eq (by decide +kernel)⟩

theorem witness_DefinedOperandsAreLatchedExactly :
    (two 10 12).Safe ∧ (two 10 12).pending = none ∧ firstCause (two 10 12) (.add 2 0 1 7 7) = none ∧
    sourceA (.add 2 0 1 7 7) = some (0, 8) ∧ ((two 10 12).value 0 8).isSome ∧ sourceB (.add 2 0 1 7 7) = some (1, 8) ∧
    ((two 10 12).value 1 8).isSome := by decide +kernel

theorem witness_TakingAFaultIsTheEntry : ∀ d ∈ [((2 : Reg), 8), (3, 1)], d.2 ≤ 8 := by decide

/-- One offset for each clause, the first and the last byte-buffer register among them. -/
theorem witness_BusyWriteAbortsTheCommand :
    (∀ o ∈ [0x000#10, 0x010#10, 0x018#10, 0x040#10, 0x078#10, 0x028#10],
      (before (.write o 8 1) adding).inputs = [.write o 8 1] ∧ (before (.write o 8 1) adding).rst = false ∧
      (before (.write o 8 1) adding).fault = false ∧ (before (.write o 8 1) adding).pending = some (latch adding)) ∧
    (∀ o ∈ [0x040#10, 0x078#10], 0x040 ≤ o.toNat ∧ o.toNat < 0x080 ∧ o.toNat % 8 = 0) ∧ (1#64).getLsbD 0 = true := by
  decide +kernel

theorem witness_FaultedUnitIsHaltedUntilReset :
    (before (.write 0x010 8 9) faulted).fault = true ∧ resetsNext (before (.write 0x010 8 9) faulted) = false ∧
    step (before (.write 0x010 8 9) faulted) = .next (stepped (before (.write 0x010 8 9) faulted)) :=
  ⟨by decide +kernel, by decide +kernel, step_eq (by decide +kernel)⟩

/-- Writes of 1 and 0 to CTRL, and `rst`, on a faulted unit; and a step of the unit held in reset. -/
theorem witness_ResetFromAnyState :
    (before (.write 0x028 8 1) faulted).inputs = [.write 0x028 8 1] ∧ (before (.write 0x028 8 1) faulted).rst = false ∧
    (1#64).getLsbD 0 = true ∧ (before (.write 0x028 8 2) faulted).inputs = [.write 0x028 8 2] ∧ (2#64).getLsbD 0 = false ∧
    (before .rstHigh faulted).inputs = [.rstHigh] ∧
    ResetValues { State.reset with rst := true } ∧
    step { State.reset with rst := true } = .next { State.reset with rst := true } := by
  refine ⟨by decide +kernel, by decide +kernel, by decide +kernel, by decide +kernel, by decide +kernel, by decide +kernel,
    ?_, rfl⟩
  constructor <;> try rfl
  · intro r i
    simp [State.limb, State.reset, allUndef, limbAt]
  · intro j
    simp [State.reset, wordAt]

/-- The ends of each range of offsets, a faulted unit and a busy one. -/
theorem witness_WindowAccessRules :
    (0x014#10).toNat % 8 ≠ 0 ∧ (4 : Nat) ≠ 8 ∧
    (∀ o ∈ [0x008#10, 0x020#10, 0x030#10, 0x038#10, 0x080#10, 0x3F8#10], o.toNat % 8 = 0 ∧ (o.toNat < 0x040 ∨ 0x080 ≤ o.toNat)) ∧
    (∀ o ∈ [0x000#10, 0x028#10, 0x080#10, 0x0F8#10, 0x300#10, 0x3F8#10], o.toNat % 8 = 0) ∧
    faulted.fault = true ∧ (0x000#10).toNat ≠ 0x028 ∧ adding.fault = false ∧ adding.pending = some (latch adding) ∧
    (∀ o ∈ [0x010#10, 0x018#10, 0x040#10, 0x078#10], o.toNat % 8 = 0 ∧ o.toNat < 0x080) := by decide +kernel

theorem witness_ParamReadsItsConstant :
    (before (.read 0x030 8) faulted).inputs = [.read 0x030 8] ∧ (before (.read 0x030 8) faulted).rst = false := by
  decide +kernel

/-- BYTEBUF's first and last word as read in any state. -/
theorem witness_HostRegistersRead :
    (0x040#10).toNat = 0x040 + 8 * 0 ∧ (0 : Nat) < 8 ∧ (0x078#10).toNat = 0x040 + 8 * 7 ∧ (7 : Nat) < 8 := by decide

theorem witness_HostRegistersReadBack :
    State.reset.Ready ∧ (∀ o ∈ [0x040#10, 0x078#10], 0x040 ≤ o.toNat ∧ o.toNat < 0x080 ∧ o.toNat % 8 = 0) ∧
    exec (.add 2 0 1 7 7) (two 10 12) = .next adding :=
  ⟨by decide +kernel, by decide +kernel, exec_eq (by decide +kernel)⟩

/-- The first limb and the last one; defined, UNDEF and busy. -/
theorem witness_VwinReadsTheLimb :
    (0x100#10).toNat = 0x100 + 0x40 * (0 : Fin 8).val + 8 * (0 : Fin 8).val ∧
    (0x2F8#10).toNat = 0x100 + 0x40 * (7 : Fin 8).val + 8 * (7 : Fin 8).val ∧
    (two 10 12).busy = false ∧ (two 10 12).limb 0 0 = .word 10 ∧ (two 10 12).limb 7 7 = .undef ∧ adding.busy = true := by
  decide +kernel

theorem witness_WindowIsOneKiloByteAtBase : Config.base + 0x400 ≤ Config.base + 0x400 := Nat.le_refl _

theorem witness_LimbsChangeOnlyAsDestinations :
    step adding = .next (stepped adding) ∧ (stepped adding).limb 2 0 ≠ adding.limb 2 0 :=
  ⟨step_eq (by decide +kernel), by decide +kernel⟩

theorem witness_CompletionDefinesTheDestinations :
    adding.fault = false ∧ adding.busy = true ∧ exec (.add 2 0 1 7 7) adding = .next (turn (.add 2 0 1 7 7) adding) ∧
    (turn (.add 2 0 1 7 7) adding).busy = false ∧ (2, 8) ∈ destsOf (.add 2 0 1 7 7) :=
  ⟨by decide +kernel, by decide +kernel, exec_eq (by decide +kernel), by decide +kernel, by decide⟩

theorem witness_FlagsChangeOnlyByTheirCommands :
    step (turn (.add 2 0 1 7 7) (two ones 1)) = .next (stepped (turn (.add 2 0 1 7 7) (two ones 1))) ∧
    (stepped (turn (.add 2 0 1 7 7) (two ones 1))).c ≠ (turn (.add 2 0 1 7 7) (two ones 1)).c ∧
    step (turn (.cmp 0 1 7 7) (two 1 2)) = .next (stepped (turn (.cmp 0 1 7 7) (two 1 2))) ∧
    (stepped (turn (.cmp 0 1 7 7) (two 1 2))).cmpr ≠ (turn (.cmp 0 1 7 7) (two 1 2)).cmpr :=
  ⟨step_eq (by decide +kernel), by decide +kernel, step_eq (by decide +kernel), by decide +kernel⟩

/-- A word is taken; and the source offers one behind another that waits. -/
theorem witness_RandomWordsAreTakenOnlyBySmp :
    step (sampling [3]) = .next (stepped (sampling [3])) ∧ (stepped (sampling [3])).rngCursor = 1 ∧
    step (before (.offer 9) (sampling [3])) = .next (stepped (before (.offer 9) (sampling [3]))) ∧
    (stepped (before (.offer 9) (sampling [3]))).rngQueue = [3, 9] :=
  ⟨step_eq (by decide +kernel), by decide +kernel, step_eq (by decide +kernel), by decide +kernel⟩

theorem witness_ReadsDoNotDisturbTheCommandInFlight :
    adding.fault = false ∧ adding.pending = some (latch adding) ∧ (latch adding).cmd = .add 2 0 1 7 7 ∧
    exec (.add 2 0 1 7 7) adding = .next (turn (.add 2 0 1 7 7) adding) :=
  ⟨by decide +kernel, by decide +kernel, by decide +kernel, exec_eq (by decide +kernel)⟩

/-- ZERO, LDW, NOT and UndefinedReadsAreRecorded are statements about any ready unit. -/
theorem witness_Ready : State.reset.Ready ∧ (two 45 7).Ready := by decide +kernel

theorem witness_LdbImportsBigEndianBytes :
    ({ State.reset with bytelen := 64 } : State).Ready ∧ (64#64).toNat ≤ 64 ∧ 64 < (65#64).toNat := by decide

theorem witness_LbytesWordsHoldTheSequence :
    (63 : Nat) < (List.replicate 64 (7 : Byte)).length ∧ (List.replicate 64 (7 : Byte)).length ≤ 64 ∧
    wordAt (setWord State.reset.bytebuf 7 (packWord (List.replicate 64 7) 7)) (63 / 8) =
      packWord (List.replicate 64 7) (63 / 8) := by decide +kernel

/-- The premises of LbytesImportsTheSequence, and the lengths where its clauses meet. -/
theorem witness_LbytesImportsTheSequence :
    ({ State.reset with inputs := macroLbytes 0 (List.replicate 65 7) } : State).Ready ∧
    ({ State.reset with inputs := macroLbytes 0 (List.replicate 64 7) } : State).Ready ∧
    State.reset.rst = false ∧ (List.replicate 64 (7 : Byte)).length ≤ 64 ∧ 64 < (List.replicate 65 (7 : Byte)).length := by
  decide +kernel

/-- spec/48_wrapper.md R96, "more than 64 bytes faults": a length that does not fit BYTELEN is written as one above 64. -/
theorem test_lengthWord : lengthWord 2 = 2 ∧ lengthWord 64 = 64 ∧ 64 < (lengthWord (2 ^ 64)).toNat ∧
    64 < (lengthWord (2 ^ 64 + 2)).toNat := by decide +kernel

/-- spec/30_encoding.md R65, spec/60_exceptions.md R99: ISSUE, a poll before the unit has moved, and a later one. -/
theorem test_macroIssue : macroIssue 7 [0, 2] = [cmdWrite 7, hostRead 0x008, .tick, .tick, hostRead 0x008] := by decide

/-- ADD's lengths: too short, equal, longer. -/
theorem witness_AddGivesSumAndCarry : (two 10 12).Ready ∧ limbs 6 < limbs 7 ∧ limbs 7 ≤ limbs 7 ∧ limbs 0 ≤ limbs 7 := by
  decide +kernel

/-- CMP's scan: limb 1 decides and the limbs above it are equal; and all limbs equal. -/
theorem witness_CmpGivesTheNumericOrder :
    (two (2 ^ 64) (2 ^ 64 - 1)).Ready ∧ limbs 7 = limbs 7 ∧
    readLimb ((two (2 ^ 64) (2 ^ 64 - 1)).limb 0 1) 1 ≠ readLimb ((two (2 ^ 64) (2 ^ 64 - 1)).limb 1 1) 9 ∧
    (∀ j < 8, 1 < j →
      readLimb ((two (2 ^ 64) (2 ^ 64 - 1)).limb 0 j) j = readLimb ((two (2 ^ 64) (2 ^ 64 - 1)).limb 1 j) (8 + j)) ∧
    (∀ j < 8, readLimb ((two 7 7).limb 0 j) j = readLimb ((two 7 7).limb 1 j) (8 + j)) := by decide +kernel

/-- The lengths of SUB, CMP and the bitwise commands: different and equal. -/
theorem witness_EqualLengths : (two 10 12).Ready ∧ limbs 7 ≠ limbs 6 ∧ limbs 7 = limbs 7 := by decide +kernel

/-- The shift commands' counts: the last in range and the first out of it, at one limb and at eight. -/
theorem witness_Shifts :
    (two 10 12).Ready ∧ (63#11).toNat < 64 * limbs 0 ∧ 64 * limbs 0 ≤ (64#11).toNat ∧ (511#11).toNat < 64 * limbs 7 ∧
    64 * limbs 7 ≤ (512#11).toNat := by decide +kernel

/-- The second part of ShrDividesByAPowerOfTwo: 10 shifted by 72 loses no bit. -/
theorem witness_ShrUndoesShl :
    (two 10 12).Ready ∧ (72#11).toNat < 64 * limbs 7 ∧ (two 10 12).value 0 (limbs 7) = some 10 ∧
    10 * 2 ^ (72#11).toNat < 2 ^ (64 * limbs 7) := by decide +kernel

theorem witness_MovCopiesTheRegister : (two 10 12).Ready ∧ (two 10 12).value 1 (limbs (defaultLa none)) = some 12 := by
  decide +kernel

/-- The multiplier's lengths: unequal, refused and accepted, with both destinations. -/
theorem witness_Multiplies :
    (two 10 12).Ready ∧ limbs 7 ≠ limbs 6 ∧ limbs 2 = 3 ∧ limbs 4 = 5 ∧ limbs 5 = 6 ∧ limbs 6 = 7 ∧ limbs 0 = 1 ∧ limbs 1 = 2 ∧
    limbs 3 = 4 ∧ limbs 7 = 8 ∧ (2 : Reg) = 2 ∧ (2 : Reg) ≠ 3 := by decide +kernel

/-- The divider's clauses: a zero divisor and one that is not. -/
theorem witness_Divides :
    (two 45 0).Ready ∧ operandB (two 45 0) 1 7 = 0 ∧ (two 45 7).Ready ∧ operandB (two 45 7) 1 7 ≠ 0 ∧ limbs 7 ≠ limbs 6 ∧
    (2 : Reg) ≠ 3 := by decide +kernel

/-- The sampler's bounds: 0, and one that is not. -/
theorem witness_SmpBounds :
    (two 0 1).Ready ∧ operandA (two 0 1) 0 7 = 0 ∧ (two 5 1).Ready ∧ operandA (two 5 1) 0 7 ≠ 0 := by decide +kernel

/-- The bound 5 has m = 3 and one limb to draw; the words 6, 5 and 3 fall under different clauses. -/
theorem witness_SmpDrawsOneWordATurn :
    (sampling [6]).fault = false ∧ (sampling [6]).pending = some (latch (sampling [6])) ∧
    (latch (sampling [6])).cmd = .smp 1 0 7 ∧ 2 ^ (3 - 1) ≤ (latch (sampling [6])).a.toNat ∧
    (latch (sampling [6])).a.toNat < 2 ^ 3 ∧ (3 + 63) / 64 - 1 = 0 ∧ (sampling [6]).sampler = none ∧
    (sampling [6]).rngQueue = [6] ∧ limbOf (latch (sampling [6])).a.toNat 0 < 6 &&& 7 ∧
    limbOf (latch (sampling [6])).a.toNat 0 = 5 &&& 7 ∧ 3 &&& 7 < limbOf (latch (sampling [6])).a.toNat 0 ∧
    (sampling []).rngQueue = [] := by decide +kernel

/-- V-SMP-3, after its first word: the bound 2^64 has m = 65, the top limb 1 and mask 1; the word 1 ties, and limb 0 is
still to draw. -/
theorem witness_SmpDrawsOneWordATurn_twoLimbs :
    2 ^ (65 - 1) ≤ (latch (turn (.smp 1 0 1) (two (2 ^ 64) 0))).a.toNat ∧
    (latch (turn (.smp 1 0 1) (two (2 ^ 64) 0))).a.toNat < 2 ^ 65 ∧ (65 + 63) / 64 - 1 = 1 ∧
    (turn (.smp 1 0 1) { turn (.smp 1 0 1) (two (2 ^ 64) 0) with rngQueue := [1, 0, 0, 5] }).sampler =
      some { cand := setWord (Vector.replicate 8 0) 1 1, eq := true, left := 0 + 1 } := by decide +kernel

theorem witness_SmpWritesTheAcceptedCandidate :
    (turn (.smp 1 0 7) (sampling [3])).fault = false ∧
    (turn (.smp 1 0 7) (sampling [3])).pending = some (latch (sampling [3])) ∧
    (turn (.smp 1 0 7) (sampling [3])).sampler = some ⟨setWord (Vector.replicate 8 0) 0 3, false, 0⟩ := by decide +kernel

/-- The state in which the candidate 3 below the bound 5 waits to be written. -/
theorem accepting_inv : (turn (.smp 1 0 7) (sampling [3])).Inv := by
  have hp : (turn (.smp 1 0 7) (sampling [3])).pending = some (latch (sampling [3])) := by decide +kernel
  have hs : (turn (.smp 1 0 7) (sampling [3])).sampler = some ⟨setWord (Vector.replicate 8 0) 0 3, false, 0⟩ := by
    decide +kernel
  have hc : (latch (sampling [3])).cmd = .smp 1 0 7 := by decide +kernel
  have ha : (latch (sampling [3])).a = 5 := by decide +kernel
  refine ⟨by decide +kernel, by decide +kernel, by decide +kernel, by decide +kernel, ?_, fun _ => ⟨_, hp, by rw [hc]; rfl⟩, ?_, ?_⟩
  · intro h
    have : (turn (.smp 1 0 7) (sampling [3])).rst = false := by decide +kernel
    rw [this] at h; cases h
  · intro p h
    obtain rfl : latch (sampling [3]) = p := by rw [hp] at h; exact Option.some.inj h
    refine ⟨by rw [hc]; decide, by rw [hc]; decide, by rw [hc]; decide, fun _ => by rw [ha]; decide +kernel, ?_, ?_⟩
    · rw [hc, ha]; rintro r n ⟨⟩; decide +kernel
    · rw [hc]; rintro r n ⟨⟩
  · intro p g h h'
    obtain rfl : latch (sampling [3]) = p := by rw [hp] at h; exact Option.some.inj h
    obtain rfl : (⟨setWord (Vector.replicate 8 0) 0 3, false, 0⟩ : Sampler) = g := by rw [hs] at h'; exact Option.some.inj h'
    rw [ha]
    refine ⟨by decide +kernel, fun i hi => ?_, fun h => Bool.noConfusion h,
      fun _ => ⟨0, Nat.le_refl _, by decide +kernel, fun i hi => ?_⟩⟩
    · have h0 : topLimb (5 : BitVec 512).toNat = 0 := by decide +kernel
      rw [h0] at hi
      simp [wordAt, setWord, Nat.ne_of_lt hi]
    · have : (5 : BitVec 512).toNat / 2 ^ (64 * i) = 0 := by
        have h5 : (5 : BitVec 512).toNat = 5 := by decide +kernel
        rw [h5]
        exact Nat.div_eq_of_lt (Nat.lt_of_lt_of_le (by decide : 5 < 2 ^ 64) (Nat.pow_le_pow_right (by decide) (by omega)))
      rw [limbOf, this]
      simp [wordAt, setWord, Nat.ne_of_lt hi]

theorem witness_StepKeepsTheInvariant :
    (turn (.smp 1 0 7) (sampling [3])).Inv ∧
    step (turn (.smp 1 0 7) (sampling [3])) = .next (stepped (turn (.smp 1 0 7) (sampling [3]))) :=
  ⟨accepting_inv, step_eq (by decide +kernel)⟩

theorem witness_SampleIsBelowItsBound :
    (turn (.smp 1 0 7) (sampling [3])).Inv ∧ (turn (.smp 1 0 7) (sampling [3])).pending = some (latch (sampling [3])) ∧
    (latch (sampling [3])).cmd = .smp 1 0 7 ∧
    (turn (.smp 1 0 7) (sampling [3])).sampler = some ⟨setWord (Vector.replicate 8 0) 0 3, false, 0⟩ :=
  ⟨accepting_inv, by decide +kernel, by decide +kernel, by decide +kernel⟩

/-- V-SMP-1: the words 6, 7, 5, 3 below the bound 5, whose m is 3. -/
theorem witness_SmpRunsTheSamplingLoop :
    ({ two 5 0 with rngQueue := [6, 7, 5, 3] } : State).Ready ∧
    operandA { two 5 0 with rngQueue := [6, 7, 5, 3] } 0 7 = 5 ∧
    ({ two 5 0 with rngQueue := [6, 7, 5, 3] } : State).inputs = [] ∧ 2 ^ (3 - 1) ≤ 5 ∧ 5 < 2 ^ 3 ∧
    sampleBelow 5 ((3 + 63) / 64 - 1) (BitVec.ofNat 64 (2 ^ (3 - 64 * ((3 + 63) / 64 - 1)) - 1)) 4 [6, 7, 5, 3] =
      some (setWord (Vector.replicate 8 0) 0 3, []) := by decide +kernel

/-- V-SMP-7: below the bound 10, whose m is 4, the word 0x1F is masked to 15 and rejected, 0x0B is rejected and 9 accepted. -/
theorem witness_SmpRunsTheSamplingLoop_mask :
    operandA (two 10 0) 0 0 = 10 ∧ 2 ^ (4 - 1) ≤ 10 ∧ 10 < 2 ^ 4 ∧
    BitVec.ofNat 64 (2 ^ (4 - 64 * ((4 + 63) / 64 - 1)) - 1) = (15 : Word) ∧
    sampleBelow 10 ((4 + 63) / 64 - 1) 15 3 [0x1F, 0x0B, 0x09] = some (setWord (Vector.replicate 8 0) 0 9, []) := by
  decide +kernel

/-- V-SMP-3: the bound 2^64 over two limbs, whose m is 65, top limb 1 and mask 1. -/
theorem witness_SmpRunsTheSamplingLoop_twoLimbs :
    operandA (two (2 ^ 64) 0) 0 1 = 2 ^ 64 ∧ 2 ^ (65 - 1) ≤ 2 ^ 64 ∧ 2 ^ 64 < 2 ^ 65 ∧
    (65 + 63) / 64 - 1 = 1 ∧ BitVec.ofNat 64 (2 ^ (65 - 64 * 1) - 1) = (1 : Word) ∧
    (sampleBelow (2 ^ 64) 1 1 2 [1, 0, 0, 5]).map (fun r => (wordsValue r.1 2, r.2)) = some (5, []) := by decide +kernel

/-- An offered value that some opcode's OPC fits: a high half that is not 0, and a reserved field that is not 0. -/
theorem witness_EncodingFaults :
    (0x0000000100FC1088#64).extractLsb' 0 6 = Opcode.add.bits ∧ (0x0000000100FC1088#64).extractLsb' 32 32 ≠ 0 ∧
    (0x00FC9088#64).extractLsb' 0 6 = Opcode.add.bits ∧ (0x00FC9088#64).extractLsb' 32 32 = 0 ∧
    (0x00FC9088#64).extractLsb' 0 32 &&& Opcode.add.mask ≠ Opcode.add.matchBits := by decide

end Sys2Proof.Tests
end

/-! # Proofs about SMP (spec/47_sample.md): one turn of the sampling loop, and the whole loop -/

/-! ### Faults and frames, for any command -/

namespace Sys2Proof

/-- R63 step 0: a value whose high half is not 0 is ILLEGAL_OPCODE. -/
theorem decode_of_high_ne_zero {c : BitVec 64} (h : c.extractLsb' 32 32 ≠ 0) : decode c = .error .illegalOpcode :=
  if_neg h

/-- R63 step 3: a word with an assigned OPC and a reserved field that is not 0 is RESERVED_FIELD. -/
theorem decode_of_reserved_ne_zero {op : Opcode} {c : BitVec 64} (hop : c.extractLsb' 0 6 = op.bits)
    (hi : c.extractLsb' 32 32 = 0) (hm : c.extractLsb' 0 32 &&& op.mask ≠ op.matchBits) :
    decode c = .error (.reservedField (operandsOf op (c.extractLsb' 0 32))) := by
  have hopc : (c.extractLsb' 0 32).extractLsb' 0 6 = op.bits := by
    rw [BitVec.extractLsb'_extractLsb'_of_le (by decide)]
    exact hop
  simp only [decode, hi, if_true, decodeWord, hopc, Opcode.ofBits_bits, if_neg hm]

end Sys2Proof

namespace Sys2Proof.Machine

/-- Taking a fault is the fault entry of spec/60_exceptions.md R103. -/
theorem faultEntry_takeFault (k : Cause) (c : Word) (ds : List (Reg × Nat)) (f : FlagName) (s : State)
    (h8 : ∀ d ∈ ds, d.2 ≤ 8) : FaultEntry k c ds f s (takeFault k c ds f s) where
  fault := rfl
  fcause := rfl
  fcmd := rfl
  idle := ⟨rfl, rfl⟩
  undef d hd i hi := (limb_takeFault ..).trans (limb_undefDests_of_mem ds s h8 d hd i hi)
  limb r i h := (limb_takeFault ..).trans (limb_undefDests_of_outside ds s r i h8 h)
  c := takeFault_c
  cmpr := takeFault_cmpr
  data := by simp
  bytelen := by simp
  bytebuf := by simp
  ports := by simp
  random := ⟨by simp, by simp⟩

/-- Recording the operand reads first leaves the fault entry as it is. -/
theorem FaultEntry.of_noteReads {k : Cause} {c : Word} {ds : List (Reg × Nat)} {f : FlagName} {i : Instr} {s t : State}
    (h : FaultEntry k c ds f (noteReads i s) t) : FaultEntry k c ds f s t where
  fault := h.fault
  fcause := h.fcause
  fcmd := h.fcmd
  idle := h.idle
  undef := h.undef
  limb r j hd := by simpa using h.limb r j hd
  c hf := by simpa using h.c hf
  cmpr hf := by simpa using h.cmpr hf
  data := by simpa using h.data
  bytelen := by simpa using h.bytelen
  bytebuf := by simpa using h.bytebuf
  ports := by simpa using h.ports
  random := by simpa [SameRandom] using h.random

/-- A command whose operand values fail their check takes that check's fault as it is offered. -/
theorem faults_of_valueCheck {i : Instr} {s : State} {k : Cause} (h : s.Ready) (hw : wordCheck s i = none)
    (hv : valueCheck i (latchOf i s) = some k) : Faults k i s := by
  refine ⟨takeCommandFault k (cmdValue i) i (noteReads i s), ?_, ?_⟩
  · rw [exec_of_ready i h, hw]
    simp [issue, hv]
  · exact (faultEntry_takeFault k _ _ _ _ (destsOf_le i)).of_noteReads

/-- The encoding faults of every opcode, on any unit (spec/60_exceptions.md R102, checks 0 to 2). -/
theorem encodingFaults (op : Opcode) (s : State) : EncodingFaults op s := by
  intro c hop
  constructor
  · intro hi
    exact ⟨_, by rw [offerCommand, decode_of_high_ne_zero hi], faultEntry_takeFault _ _ _ _ _ (by simp)⟩
  · intro hi hm
    exact ⟨_, by rw [offerCommand, decode_of_reserved_ne_zero hop hi hm]; rfl,
      faultEntry_takeFault _ _ _ _ _ (destsOf_le _)⟩

/-- A change of nothing in the frame, then one within it. -/
theorem Frame.trans {ds : List (Reg × Nat)} {f : FlagName} {s t u : State} (h₁ : Frame [] .noFlag s t)
    (h₂ : Frame ds f t u) : Frame ds f s u where
  limb r i hd := (h₂.limb r i hd).trans (h₁.limb r i (by simp))
  c hf := (h₂.c hf).trans (h₁.c (by simp))
  cmpr hf := (h₂.cmpr hf).trans (h₁.cmpr (by simp))
  fault := h₂.fault.trans h₁.fault
  fcause := h₂.fcause.trans h₁.fcause
  fcmd := h₂.fcmd.trans h₁.fcmd
  data := h₂.data.trans h₁.data
  bytelen := h₂.bytelen.trans h₁.bytelen
  bytebuf := h₂.bytebuf.trans h₁.bytebuf
  rst := h₂.rst.trans h₁.rst
  rdata := h₂.rdata.trans h₁.rdata
  inputs := h₂.inputs.trans h₁.inputs

/-- Writing the low limbs of one register and completing stays within that register's frame. -/
theorem frame_complete_writeWords (rd : Reg) {n : Nat} (g : Nat → Word) (f : FlagName) (s : State) (hn : n ≤ 8) :
    Frame [(rd, n)] f s (complete (writeWords rd n g s)) where
  limb r i hd := by
    rw [limb_complete, limb_writeWords _ _ _ _ _ _ hn, if_neg]
    rintro ⟨rfl, hi⟩
    exact Nat.not_le_of_lt hi (hd (r, n) (by simp) rfl)
  c _ := rfl
  cmpr _ := rfl
  fault := rfl
  fcause := rfl
  fcmd := rfl
  data := rfl
  bytelen := rfl
  bytebuf := rfl
  rst := rfl
  rdata := rfl
  inputs := rfl

/-- A register whose low limbs are the low ones of eight words holds the number those words form. -/
theorem value_eq_wordsValue {s : State} {r : Reg} {ws : Vector Word 8} {n : Nat}
    (h : ∀ i < n, s.limb r i = .word (wordAt ws i)) : s.value r n = some (wordsValue ws n) := by
  unfold State.value
  induction n with
  | zero => rfl
  | succ n ih =>
    have hlast : limbAt s.v[r] n = .word (wordAt ws n) := h n (by omega)
    rw [definedValue, ih fun i hi => h i (by omega), hlast, wordsValue]

/-! ### Runs of the machine -/

/-- A run's first step. -/
theorem run_succ {M : Host.Core} {s t : M.State} (k : Nat) (h : M.step s = .next t) : M.run (k + 1) s = M.run k t := by
  rw [Host.Core.run, h]

/-- With no input listed the unit makes progress on the command in flight (notes/assumptions/3.md). -/
theorem step_inFlight {s : State} {p : Latch} (hi : s.inputs = []) (hf : s.fault = false) (hp : s.pending = some p) :
    step s = .next (progressOf p.cmd p s) := by
  simp only [step, hi, unitProgress, hp, exec_inFlight p.cmd hf hp]

/-! ### One turn of the sampling loop (spec/47_sample.md R89) -/

/-- The word as drawn for limb `i`: masked where `i` is the bound's top limb. -/
def drawnWord (x i : Nat) (w : Word) : Word := if i = topLimb x then w &&& topMask x else w

/-- The attempt is abandoned where the word exceeds the bound's limb with every limb so far equal. -/
theorem draw_of_exceeds {x i : Nat} {g : Sampler} {w : Word} (hl : g.left = i + 1) (he : g.eq = true)
    (hw : limbOf x i < drawnWord x i w) : g.draw x w = Sampler.start x := by
  unfold drawnWord at hw
  simp only [Sampler.draw, hl, he, hw, and_self, if_true]

/-- The attempt is abandoned where limb 0 leaves the candidate equal to the bound. -/
theorem draw_of_ties {x : Nat} {g : Sampler} {w : Word} (hl : g.left = 1) (he : g.eq = true)
    (hw : drawnWord x 0 w = limbOf x 0) : g.draw x w = Sampler.start x := by
  unfold drawnWord at hw
  simp [Sampler.draw, hl, he, hw]

/-- Otherwise the limb is stored. -/
theorem draw_of_fits {x i : Nat} {g : Sampler} {w : Word} (hl : g.left = i + 1)
    (hle : ¬ (g.eq = true ∧ limbOf x i < drawnWord x i w))
    (hne : ¬ (i = 0 ∧ g.eq = true ∧ drawnWord x i w = limbOf x i)) :
    g.draw x w = ⟨setWord g.cand i (drawnWord x i w), g.eq && drawnWord x i w == limbOf x i, i⟩ := by
  unfold drawnWord at *
  simp only [Sampler.draw, hl]
  rw [if_neg hle, if_neg (by simpa using hne)]

/-! ### The unit's progress on an SMP -/

/-- The sampler's progress below the bound `x`: the start of an attempt where none has been made. -/
abbrev samplerOf (x : Nat) (s : State) : Sampler := s.sampler.getD (Sampler.start x)

/-- The state after an SMP in flight below `x` has taken the word `w`, `ws` being left. -/
def afterDraw (x : Nat) (g : Sampler) (w : Word) (ws : List Word) (s : State) : State :=
  { s with rngQueue := ws, rngCursor := s.rngCursor + 1, sampler := some (g.draw x w) }

theorem sampleProgress_of_starved {rd : Reg} {n : Nat} {p : Latch} {s : State} {g : Sampler}
    (hg : samplerOf p.a.toNat s = g) (hl : g.left ≠ 0) (hq : s.rngQueue = []) :
    sampleProgress rd n p s = s := by
  simp [sampleProgress, hg, hl, hq]

theorem sampleProgress_of_word {rd : Reg} {n : Nat} {p : Latch} {s : State} {g : Sampler} {w : Word} {ws : List Word}
    (hg : samplerOf p.a.toNat s = g) (hl : g.left ≠ 0) (hq : s.rngQueue = w :: ws) :
    sampleProgress rd n p s = afterDraw p.a.toNat g w ws s := by
  simp [sampleProgress, hg, hl, hq, afterDraw]

theorem sampleProgress_of_accepted {rd : Reg} {n : Nat} {p : Latch} {s : State} {g : Sampler}
    (hg : samplerOf p.a.toNat s = g) (hl : g.left = 0) :
    sampleProgress rd n p s = complete (writeWords rd n (wordAt g.cand) s) := by
  simp [sampleProgress, hg, hl]

theorem samplerOf_afterDraw (x : Nat) (g : Sampler) (w : Word) (ws : List Word) (s : State) :
    samplerOf x (afterDraw x g w ws s) = g.draw x w := rfl

theorem frame_afterDraw (x : Nat) (g : Sampler) (w : Word) (ws : List Word) (s : State) :
    Frame [] .noFlag s (afterDraw x g w ws s) := by
  constructor <;> intros <;> rfl

/-- The operand check of SMP: its bound is not 0. -/
theorem valueCheck_smp (rd rs1 : Reg) (la : Len) (s : State) :
    valueCheck (.smp rd rs1 la) (latchOf (.smp rd rs1 la) s) =
      if operandA s rs1 la = 0 then some .zeroBound else none := by
  rw [← latchOf_a (i := .smp rd rs1 la) rfl]
  simp only [valueCheck, checkBound, BitVec.toNat_eq, BitVec.ofNat_eq_ofNat, BitVec.toNat_zero]

/-- Settles O48: the turn is `sampleProgress_of_word`, and the five outcomes are the three branches of the draw. -/
theorem smpDrawsOneWordATurn : Obligations.SmpDrawsOneWordATurn := by
  intro rd rs1 la s p g i m hf hp X top mask fresh hm1 hm2 hg hl
  have hfresh : Sampler.start X = fresh := by simp only [Sampler.start, topLimb_eq hm1 hm2, fresh, top]
  have hsg : samplerOf X s = g := by
    obtain hg | ⟨hg, rfl⟩ := hg <;> simp [samplerOf, hg, hfresh]
  have hleft : g.left ≠ 0 := by omega
  rw [exec_inFlight _ hf hp]
  constructor
  · intro hq
    exact congrArg _ (sampleProgress_of_starved hsg hleft hq)
  · intro w ws hq w'
    have hw' : drawnWord X i w = w' := by simp only [drawnWord, topLimb_eq hm1 hm2, topMask_eq hm1 hm2, w', top, mask]
    refine ⟨afterDraw X g w ws s, g.draw X w, congrArg _ (sampleProgress_of_word hsg hleft hq), rfl, rfl, hp, rfl,
      frame_afterDraw .., ?_, ?_, ?_, ?_, ?_⟩
    · intro he hlt
      rw [draw_of_exceeds hl he (hw' ▸ hlt), hfresh]
    · rintro he heq rfl
      rw [draw_of_ties hl he (hw' ▸ heq), hfresh]
    · intro he heq hi
      rw [draw_of_fits hl (by simp [hw', heq]) (by simp [hi])]
      simp [he, hw', heq]
    · intro he hlt
      have hne : w' ≠ limbOf X i := BitVec.ne_of_lt hlt
      rw [draw_of_fits hl (by simp [hw', BitVec.not_lt.mpr (BitVec.le_of_lt hlt)]) (by simp [hw', hne])]
      simp [hw', hne]
    · intro he
      rw [draw_of_fits hl (by simp [he]) (by simp [he])]
      simp [he, hw']

/-! ### The sampling loop, run by the machine -/

/-- The unit is left to itself with the SMP of these operands in flight, its latch `p`. -/
structure Sampling (rd rs1 : Reg) (la : Len) (p : Latch) (s : State) : Prop where
  inputs : s.inputs = []
  fault : s.fault = false
  pending : s.pending = some p
  cmd : p.cmd = .smp rd rs1 la

/-- Left to itself the unit gets from `s` to `u` by taking random words: every run from `u` is the end of one from `s`. -/
structure DrawsTo (s u : State) : Prop where
  run : ∃ k, ∀ j, core.run (j + k) s = core.run j u
  frame : Frame [] .noFlag s u
  pending : u.pending = s.pending
  words : u.rngCursor + u.rngQueue.length = s.rngCursor + s.rngQueue.length

theorem DrawsTo.refl (s : State) : DrawsTo s s where
  run := ⟨0, fun _ => rfl⟩
  frame := by constructor <;> intros <;> rfl
  pending := rfl
  words := rfl

theorem DrawsTo.trans {s t u : State} (h₁ : DrawsTo s t) (h₂ : DrawsTo t u) : DrawsTo s u where
  run := by
    obtain ⟨k₁, h₁⟩ := h₁.run
    obtain ⟨k₂, h₂⟩ := h₂.run
    exact ⟨k₂ + k₁, fun j => by rw [← Nat.add_assoc, h₁, h₂]⟩
  frame := h₁.frame.trans h₂.frame
  pending := h₂.pending.trans h₁.pending
  words := h₂.words.trans h₁.words

section
variable {rd rs1 : Reg} {la : Len} {p : Latch} {s u : State}

theorem Sampling.of_drawsTo (hs : Sampling rd rs1 la p s) (h : DrawsTo s u) : Sampling rd rs1 la p u where
  inputs := h.frame.inputs.trans hs.inputs
  fault := h.frame.fault.trans hs.fault
  pending := h.pending.trans hs.pending
  cmd := hs.cmd

/-- The step of a sampling unit is the sampler's. -/
theorem Sampling.step_eq (hs : Sampling rd rs1 la p s) : step s = .next (sampleProgress rd (limbs la) p s) := by
  rw [step_inFlight hs.inputs hs.fault hs.pending, hs.cmd, progressOf]

/-- A sampling unit that needs a limb takes the next word. -/
theorem Sampling.drawsTo_afterDraw {g : Sampler} {w : Word} {ws : List Word} (hs : Sampling rd rs1 la p s)
    (hg : samplerOf p.a.toNat s = g) (hl : g.left ≠ 0) (hq : s.rngQueue = w :: ws) :
    DrawsTo s (afterDraw p.a.toNat g w ws s) where
  run := ⟨1, fun j => run_succ (M := core) j (hs.step_eq.trans (congrArg _ (sampleProgress_of_word hg hl hq)))⟩
  frame := frame_afterDraw ..
  pending := rfl
  words := by
    simp only [afterDraw, hq, List.length_cons]
    omega

/-- A turn of the loop of `attempt` with the machine's own top limb and mask. -/
theorem attempt_cons (x k : Nat) (eq : Bool) (cand : Vector Word 8) (w : Word) (ws : List Word) :
    attempt x (topLimb x) (topMask x) (k + 1) eq cand (w :: ws) =
      if eq = true ∧ limbOf x k < drawnWord x k w then .retry ws
      else attempt x (topLimb x) (topMask x) k (eq && drawnWord x k w == limbOf x k)
        (setWord cand k (drawnWord x k w)) ws := rfl

/-- The progress that the outcome of an attempt leaves the sampler with, and the words left. -/
def Attempt.progress (x : Nat) : Attempt → Option (Sampler × List Word)
  | .retry rest => some (Sampler.start x, rest)
  | .accepted cand rest => some (⟨cand, false, 0⟩, rest)
  | .starved => none

/-- An attempt of the loop with `k` limbs to draw is the unit's own turns up to that attempt's end. The premise `h0` leaves
out a candidate equal to the bound with no limb to draw: the unit abandons such an attempt in the turn of its last word. -/
theorem Sampling.runs_attempt {k : Nat} {eq : Bool} {cand : Vector Word 8} {g : Sampler} {rest : List Word}
    (hs : Sampling rd rs1 la p s) (hg : samplerOf p.a.toNat s = ⟨cand, eq, k⟩) (h0 : k = 0 → eq = false)
    (ha : (attempt p.a.toNat (topLimb p.a.toNat) (topMask p.a.toNat) k eq cand s.rngQueue).progress p.a.toNat =
      some (g, rest)) :
    ∃ u, DrawsTo s u ∧ samplerOf p.a.toNat u = g ∧ u.rngQueue = rest := by
  induction k generalizing s eq cand with
  | zero =>
    obtain rfl := h0 rfl
    obtain ⟨rfl, rfl⟩ : ⟨cand, false, 0⟩ = g ∧ s.rngQueue = rest := by simpa [attempt, Attempt.progress] using ha
    exact ⟨s, .refl s, hg, rfl⟩
  | succ k ih =>
    cases hq : s.rngQueue with
    | nil => simp [hq, attempt, Attempt.progress] at ha
    | cons w ws =>
      have hdraw := hs.drawsTo_afterDraw hg (by simp) hq
      rw [hq, attempt_cons] at ha
      by_cases hgt : eq = true ∧ limbOf p.a.toNat k < drawnWord p.a.toNat k w
      · rw [if_pos hgt] at ha
        cases ha
        exact ⟨_, hdraw, (samplerOf_afterDraw ..).trans (draw_of_exceeds rfl hgt.1 hgt.2), rfl⟩
      · rw [if_neg hgt] at ha
        by_cases htie : k = 0 ∧ eq = true ∧ drawnWord p.a.toNat k w = limbOf p.a.toNat k
        · obtain ⟨rfl, rfl, heq⟩ := htie
          simp only [heq, beq_self_eq_true, Bool.and_self, attempt, if_true] at ha
          cases ha
          exact ⟨_, hdraw, (samplerOf_afterDraw ..).trans (draw_of_ties rfl rfl heq), rfl⟩
        · obtain ⟨u, hu, hgu⟩ := ih (hs.of_drawsTo hdraw)
            ((samplerOf_afterDraw ..).trans (draw_of_fits rfl hgt htie)) (by simpa using htie) ha
          exact ⟨u, hdraw.trans hu, hgu⟩

/-- The loop from the start of an attempt is the unit's own turns up to the accepted candidate. -/
theorem Sampling.runs_sampleBelow {n : Nat} {cand : Vector Word 8} {rest : List Word}
    (hs : Sampling rd rs1 la p s) (hg : samplerOf p.a.toNat s = Sampler.start p.a.toNat)
    (h : sampleBelow p.a.toNat (topLimb p.a.toNat) (topMask p.a.toNat) n s.rngQueue = some (cand, rest)) :
    ∃ u, DrawsTo s u ∧ samplerOf p.a.toNat u = ⟨cand, false, 0⟩ ∧ u.rngQueue = rest := by
  induction n generalizing s with
  | zero => simp [sampleBelow] at h
  | succ n ih =>
    rw [sampleBelow] at h
    split at h
    next ws ha =>
      obtain ⟨t, hst, hgt, rfl⟩ := hs.runs_attempt (g := Sampler.start p.a.toNat) hg (by simp) (by rw [ha]; rfl)
      obtain ⟨u, htu, hu⟩ := ih (hs.of_drawsTo hst) hgt h
      exact ⟨u, hst.trans htu, hu⟩
    next c ws ha =>
      cases h
      exact hs.runs_attempt hg (by simp) (by rw [ha]; rfl)
    next => cases h

/-- The turn after the last word writes the accepted candidate and completes. -/
theorem Sampling.run_write {g : Sampler} (hs : Sampling rd rs1 la p s) (hg : samplerOf p.a.toNat s = g)
    (hl : g.left = 0) : core.run 1 s = .next (complete (writeWords rd (limbs la) (wordAt g.cand) s)) :=
  run_succ (M := core) 0 (hs.step_eq.trans (congrArg _ (sampleProgress_of_accepted hg hl)))

/-- From the start of an attempt the unit completes with the candidate that the loop accepts. -/
theorem Sampling.completes_sampleBelow {n : Nat} {cand : Vector Word 8} {rest : List Word}
    (hs : Sampling rd rs1 la p s) (hg : samplerOf p.a.toNat s = Sampler.start p.a.toNat)
    (h : sampleBelow p.a.toNat (topLimb p.a.toNat) (topMask p.a.toNat) n s.rngQueue = some (cand, rest)) :
    ∃ k u, core.run k s = .next u ∧ u.busy = false ∧ (∀ j < limbs la, u.limb rd j = .word (wordAt cand j)) ∧
      u.rngQueue = rest ∧ u.rngCursor + rest.length = s.rngCursor + s.rngQueue.length ∧
      Frame [(rd, limbs la)] .noFlag s u := by
  obtain ⟨t, hst, hgt, rfl⟩ := hs.runs_sampleBelow hg h
  obtain ⟨k, hk⟩ := hst.run
  refine ⟨1 + k, _, (hk 1).trans ((hs.of_drawsTo hst).run_write hgt rfl), rfl, fun j hj => ?_, rfl, hst.words,
    hst.frame.trans (frame_complete_writeWords rd _ _ t (limbs_le la))⟩
  rw [limb_complete, limb_writeWords _ _ _ _ _ _ (limbs_le la), if_pos ⟨rfl, hj⟩]

end

/-- The SMP that a ready unit has accepted is sampling, where no input is listed. -/
theorem sampling_accepted (rd rs1 : Reg) (la : Len) {s : State} (hr : s.Ready) (hin : s.inputs = []) :
    Sampling rd rs1 la (latchOf (.smp rd rs1 la) s) (accepted (.smp rd rs1 la) s) where
  inputs := by simpa [accepted] using hin
  fault := (accepted_ready _ hr).1
  pending := rfl
  cmd := rfl

/-- Settles O51: the accepted SMP is sampling, and `Sampling.completes_sampleBelow` runs it to its end. -/
theorem smpRunsTheSamplingLoop : Obligations.SmpRunsTheSamplingLoop := by
  intro rd rs1 la s hr X L
  refine ⟨rfl, rfl, encodingFaults .smp s, fun h0 => ?_, fun h0 => ?_⟩
  · exact faults_of_valueCheck hr rfl ((valueCheck_smp ..).trans (if_pos h0))
  · have hv := (valueCheck_smp rd rs1 la s).trans (if_neg h0)
    obtain ⟨hm1, hm2⟩ := msbIndex_spec h0
    refine ⟨msbIndex X, accepted (.smp rd rs1 la) s, hm1, hm2, ?_, rfl, rfl, frame_accepted _, sameRandom_accepted _ s, ?_⟩
    · exact (exec_of_ready _ hr).trans (congrArg _ (issue_accepts hv))
    · intro top mask n cand rest hin hloop
      obtain ⟨hq, hc⟩ := sameRandom_accepted (.smp rd rs1 la) s
      have hX : (latchOf (.smp rd rs1 la) s).a.toNat = X := latchOf_a rfl
      have htop : topLimb X = top := topLimb_eq hm1 hm2
      have hmask : topMask X = mask := topMask_eq hm1 hm2
      obtain ⟨k, u, hrun, hidle, hlimbs, hrest, hwords, hframe⟩ :=
        (sampling_accepted rd rs1 la hr hin).completes_sampleBelow rfl (by rw [hX, htop, hmask, hq]; exact hloop)
      rw [hq, hc] at hwords
      exact ⟨k, u, hrun, hidle, hlimbs, value_eq_wordsValue hlimbs, hrest, hwords, (frame_accepted _).trans hframe⟩

end Sys2Proof.Machine

/-! # Proofs about the unit's state (spec/10_state.md): its invariant, its operand reads, what may change it, and what a
host reads of it -/

namespace Sys2Proof.Machine

/-! ### Reset and the invariant -/

/-- The state after reset is what a reset of the unit makes of it. -/
theorem unitReset_reset : unitReset State.reset = State.reset := rfl

/-- Settles O9: a reset of the unit gives a state that meets the invariant. -/
theorem invariantHoldsAtReset : Obligations.InvariantHoldsAtReset := by
  unfold Obligations.InvariantHoldsAtReset
  rw [← unitReset_reset]
  exact inv_unitReset _

/-- Settles O10: a step is the unit's own progress or the reaction to an input, and each keeps the invariant. -/
theorem stepKeepsTheInvariant : Obligations.StepKeepsTheInvariant := by
  intro s t hinv hstep
  unfold step at hstep
  split at hstep
  next => exact inv_unitProgress hinv hstep
  next e rest _ =>
    have hrest : ({ s with inputs := rest } : State).Inv :=
      inv_env hinv rfl rfl rfl rfl rfl rfl rfl rfl rfl rfl rfl rfl
    exact inv_react hrest hstep

/-- Settles O17: a reset of the unit gives the reset values. -/
theorem resetStateHasTheResetValues : Obligations.ResetStateHasTheResetValues := by
  constructor
  · rw [← unitReset_reset]
    exact resetValues_unitReset _
  · decide

/-! ### The first failing check (spec/60_exceptions.md R101, R102) -/

/-- The operand check of the divider: its divisor is not 0. -/
theorem checkDivisor_latchOf {i : Instr} {s : State} {r : Reg} {lb : Len} (h : sourceB i = some (r, limbs lb)) :
    checkDivisor (latchOf i s) = if operandB s r lb = 0 then some .divZero else none := by
  rw [← latchOf_b h]
  simp only [checkDivisor, BitVec.toNat_eq, BitVec.ofNat_eq_ofNat, BitVec.toNat_zero]

/-- SHIFT_RANGE under the condition as R101 words it. -/
theorem checkShift_eq (shamt : BitVec 11) (la : Len) :
    checkShift shamt la = if 64 * limbs la ≤ shamt.toNat then some .shiftRange else none := by
  simp only [checkShift, ← not_le, ite_not]

/-- LENGTH_NOT_POW2 comes after LENGTH_MISMATCH, so R101's condition for it may ask for equal lengths again. -/
theorem checkEqualLengths_or_checkPow2 (la lb : Len) :
    (checkEqualLengths la lb).or (checkPow2 la) = (checkEqualLengths la lb).or
      (if limbs la = limbs lb ∧ limbs la ∉ [1, 2, 4, 8] then some .lengthNotPow2 else none) := by
  by_cases h : limbs la = limbs lb
  · simp only [checkEqualLengths, checkPow2, h, if_true, Option.none_or, true_and, ite_not]
  · simp only [checkEqualLengths, h, if_false, Option.some_or]

/-- The first of a list of causes that holds is its head, if that holds, else the first of the rest. -/
theorem find?_cause_cons (holds : Cause → Bool) (k : Cause) (ks : List Cause) :
    (k :: ks).find? holds = (if holds k then some k else none).or (ks.find? holds) := by
  cases h : holds k <;> simp [h]

/-- The checks of the command word and BYTELEN are checks 3 to 7, each where R101 gives its cause. -/
theorem wordCheck_eq_find (s : State) (i : Instr) :
    wordCheck s i = [Cause.destConflict, .lengthMismatch, .lengthNotPow2, .shiftRange, .bytesOversize].find?
      (causeHolds s i) := by
  cases i <;>
    simp only [wordCheck, checkEqualLengths_or_checkPow2, checkShift_eq, find?_cause_cons, List.find?_nil, causeHolds] <;>
    simp [checkAccumulator, checkEqualLengths, checkDests, checkBytes]

/-- The checks of the operand values are checks 8 and 9, each where R101 gives its cause. -/
theorem valueCheck_eq_find (s : State) (i : Instr) :
    valueCheck i (latchOf i s) = [Cause.divZero, .zeroBound].find? (causeHolds s i) := by
  simp only [find?_cause_cons, List.find?_nil, causeHolds]
  cases i
  case div => exact (checkDivisor_latchOf rfl).trans (by simp)
  case rem => exact (checkDivisor_latchOf rfl).trans (by simp)
  case divr => exact (checkDivisor_latchOf rfl).trans (by simp)
  case smp => exact (valueCheck_smp ..).trans (by simp)
  all_goals rfl

/-- The restatement of R101 and R102 in `firstCause` is the checks that the meanings call, in their order. -/
theorem firstCause_eq (s : State) (i : Instr) :
    firstCause s i = (wordCheck s i).or (valueCheck i (latchOf i s)) := by
  rw [wordCheck_eq_find, valueCheck_eq_find, ← List.find?_append]
  rfl

/-- The checks of the command word and BYTELEN give no cause that speaks of operand values. -/
theorem ne_of_wordCheck {s : State} {i : Instr} {k : Cause} (h : wordCheck s i = some k) :
    k ≠ .divZero ∧ k ≠ .zeroBound := by
  rw [wordCheck_eq_find] at h
  have hk := List.mem_of_find?_eq_some h
  constructor <;> rintro rfl <;> simp at hk

/-- The checks of the operand values give no other cause. -/
theorem eq_of_valueCheck {s : State} {i : Instr} {k : Cause} (h : valueCheck i (latchOf i s) = some k) :
    k = .divZero ∨ k = .zeroBound := by
  rw [valueCheck_eq_find] at h
  simpa using List.mem_of_find?_eq_some h

/-! ### Operand reads and the latch (spec/10_state.md R19, R35, spec/60_exceptions.md R107) -/

@[simp] theorem noteReads_readUndef (i : Instr) (s : State) :
    (noteReads i s).readUndef = (s.readUndef || readsUndef i s) := by
  unfold noteReads
  cases h : readsUndef i s <;> simp

/-- Settles O12: `issue` records the reads after the checks of the command word and BYTELEN, and before those of the
operand values. -/
theorem undefinedReadsAreRecorded : Obligations.UndefinedReadsAreRecorded := by
  intro i s hr
  refine ⟨_, exec_of_ready i hr, ?_⟩
  rw [firstCause_eq]
  obtain ⟨k, hw, he⟩ | ⟨k, hw, hv, he⟩ | ⟨hw, hv, he⟩ := issue_cases i (wordCheck s i) (valueCheck i) s <;>
    rw [he, hw]
  · simp [takeCommandFault, ne_of_wordCheck hw]
  · simp [takeCommandFault, hv, eq_of_valueCheck hv]
  · simp [hv]

/-- The operand A is at most 8 limbs long. -/
theorem sourceA_le {i : Instr} {r : Reg} {n : Nat} (h : sourceA i = some (r, n)) : n ≤ 8 := by
  cases i <;> cases h <;> exact limbs_le _

/-- The operand B is at most 8 limbs long. -/
theorem sourceB_le {i : Instr} {r : Reg} {n : Nat} (h : sourceB i = some (r, n)) : n ≤ 8 := by
  cases i <;> cases h <;> exact limbs_le _

/-- What is latched for a source whose limbs are all defined is the register's value. -/
theorem value_eq_sourceValue {s : State} {r : Reg} {n : Nat} (k : Nat) (hn : n ≤ 8) (h : (s.value r n).isSome) :
    s.value r n = some (sourceValue s (some (r, n)) k).toNat := by
  obtain ⟨x, hx⟩ := Option.isSome_iff_exists.mp h
  rw [sourceValue_toNat s r n k hn, rdL_eq_of_definedValue hx, hx]

/-- A read of defined limbs touches no UNDEF limb. -/
theorem sourceUndef_of_defined {s : State} {src : Source} (h : ∀ r n, src = some (r, n) → (s.value r n).isSome) :
    sourceUndef s src = false := by
  match src with
  | none => rfl
  | some (r, n) =>
    obtain ⟨x, hx⟩ := Option.isSome_iff_exists.mp (h r n rfl)
    exact touchesUndef_of_definedValue hx

/-- Settles O13: the command is accepted, its reads touch no UNDEF limb, and each latched value is its register's. -/
theorem definedOperandsAreLatchedExactly : Obligations.DefinedOperandsAreLatchedExactly := by
  intro i s ⟨hf, hu⟩ hp hc ha hb
  rw [firstCause_eq, Option.or_eq_none_iff] at hc
  obtain ⟨hw, hv⟩ := hc
  have hread : readsUndef i s = false := by
    simp only [readsUndef, sourceUndef_of_defined ha, sourceUndef_of_defined hb, Bool.or_self]
  refine ⟨accepted i s, latchOf i s, ?_, ?_, rfl, rfl, fun r n h => ?_, fun r n h => ?_, rfl, rfl, rfl⟩
  · rw [exec_of_ready i ⟨hf, hp⟩, hw, issue_accepts hv, accepted]
  · simp [State.Safe, accepted, hf, hu, hread]
  · simpa only [latchOf, h] using value_eq_sourceValue s.draws (sourceA_le h) (ha r n h)
  · simpa only [latchOf, h] using value_eq_sourceValue (s.draws + 8) (sourceB_le h) (hb r n h)

/-! ### The faulted unit (spec/10_state.md R23, spec/60_exceptions.md R106) -/

/-- A bus access that is admitted finds `rst` low. -/
theorem busAccess_eq_next {s t : State} {access : Out} (h : busAccess s access = .next t) :
    s.rst = false ∧ access = .next t := by
  unfold busAccess at h
  cases hr : s.rst
  · simpa [hr] using h
  · simp [hr] at h

theorem unitProgress_of_fault {s : State} (hf : s.fault = true) : unitProgress s = .next s := by
  unfold unitProgress
  split
  · rfl
  · exact exec_of_fault _ hf

/-- While FAULT = 1 a host write does nothing but reset the unit. -/
theorem busWrite_of_fault {s : State} (hf : s.fault = true) (o : BitVec 10) (w : Nat) (v : Word) :
    busWrite o w v s = .next s ∨ (o = 0x028 ∧ w = 8 ∧ v.getLsbD 0 = true) := by
  rcases busWrite_cases o w v s with h | ⟨ho, hw, hv, -⟩ | ⟨p, hn, -⟩ | ⟨-, -, hr, -⟩ | ⟨hr, -⟩
  · exact .inl h
  · exact .inr ⟨ho, hw, hv⟩
  · simp [hf] at hn
  · simp [State.Ready, hf] at hr
  · simp [State.Ready, hf] at hr

/-- All that a step short of a reset can change in a faulted unit: the ports and the model's fields for the other agents. -/
theorem step_of_fault {s t : State} (hf : s.fault = true) (hr : resetsNext s = false) (h : step s = .next t) :
    ∃ inputs rst rdata queue draws,
      t = { s with inputs := inputs, rst := rst, rdata := rdata, rngQueue := queue, draws := draws } := by
  unfold step at h
  cases hi : s.inputs with
  | nil =>
    simp only [hi, unitProgress_of_fault hf] at h
    cases h
    exact ⟨_, _, _, _, _, rfl⟩
  | cons e rest =>
    simp only [hi] at h
    cases e with
    | tick =>
      cases (unitProgress_of_fault (s := { s with inputs := rest }) hf).symm.trans h
      exact ⟨_, _, _, _, _, rfl⟩
    | read o w =>
      obtain ⟨-, h⟩ := busAccess_eq_next h
      rw [busRead_eq] at h
      cases h
      exact ⟨_, _, _, _, _, rfl⟩
    | write o w v =>
      obtain ⟨-, h⟩ := busAccess_eq_next h
      rcases busWrite_of_fault (s := { s with inputs := rest }) hf o w v with hw | hw
      · cases hw.symm.trans h
        exact ⟨_, _, _, _, _, rfl⟩
      · simp [resetsNext, hi, hw] at hr
    | offer w =>
      cases h
      exact ⟨_, _, _, _, _, rfl⟩
    | rstHigh => simp [resetsNext, hi] at hr
    | rstLow =>
      cases h
      exact ⟨_, _, _, _, _, rfl⟩

/-- Settles O16: `step_of_fault` names none of the unit's own fields. -/
theorem faultedUnitIsHaltedUntilReset : Obligations.FaultedUnitIsHaltedUntilReset := by
  intro s t hf hr hstep
  obtain ⟨_, _, _, _, _, rfl⟩ := step_of_fault hf hr hstep
  exact ⟨rfl, hf, rfl, rfl, rfl, rfl, rfl, rfl, rfl, rfl, rfl, rfl⟩

/-! ### What may change limbs and flags (spec/10_state.md R20, R24, R25) -/

/-- A view of limbs and flags that only the commands `who` write changes only by such a command, in flight or taking a
fault as it is offered, or by a reset. -/
theorem writtenBy_of_ne {α : Type} {view : State → α} {who : Instr → Prop}
    (hview : ∀ q s, (q.v = s.v ∧ q.c = s.c ∧ q.cmpr = s.cmpr) → view q = view s)
    (hprogress : ∀ i p q, ¬ who i → view (progressOf i p q) = view q)
    (hfault : ∀ i k c q, ¬ who i → view (takeFault k c (destsOf i) (flagOf i) q) = view q)
    {s t : State} (hstep : step s = .next t) (hne : view t ≠ view s) : WrittenBy who s t := by
  rcases step_writes hstep with hr | h | ⟨p, q, hp, hq, ht⟩ | ⟨i, q, k, c, ho, hq, rfl⟩
  · exact .inl hr
  · exact absurd (hview t s h) hne
  · refine .inr (.inl ⟨p, hp, by_contra fun hw => hne ?_⟩)
    rw [← hview q s hq]
    rcases ht with rfl | ⟨k, c, rfl⟩
    · exact hprogress _ _ _ hw
    · exact hfault _ _ _ _ hw
  · refine .inr (.inr ⟨i, ho, by_contra fun hw => hne ?_, rfl⟩)
    rw [← hview q s hq]
    exact hfault _ _ _ _ hw

/-- Settles O26: neither progress nor a fault changes a limb outside the command's destinations. -/
theorem limbsChangeOnlyAsDestinations : Obligations.LimbsChangeOnlyAsDestinations := by
  intro s t r j
  have outside {i : Instr} (h : ¬ ∃ d ∈ destsOf i, d.1 = r ∧ j < d.2) : ∀ d ∈ destsOf i, d.1 = r → d.2 ≤ j :=
    fun d hd hr => not_lt.mp fun hj => h ⟨d, hd, hr, hj⟩
  refine writtenBy_of_ne (view := fun q => q.limb r j) (fun _ _ h => limb_congr h.1 r j) (fun i p q h => ?_)
    (fun i k c q h => ?_)
  · exact progress_limb i p q r j (outside h)
  · exact (faultEntry_takeFault k c _ _ q (destsOf_le i)).limb r j (outside h)

/-- Only ADD and SUB write C (spec/10_state.md R24). -/
theorem flagOf_ne_carry {i : Instr} (h : ¬ (i.opcode = .add ∨ i.opcode = .sub)) : flagOf i ≠ .carry := by
  cases i <;> simp [flagOf, Instr.opcode] at h ⊢

/-- Only CMP writes CMPR (spec/10_state.md R25). -/
theorem flagOf_ne_comparison {i : Instr} (h : ¬ i.opcode = .cmp) : flagOf i ≠ .comparison := by
  cases i <;> simp [flagOf, Instr.opcode] at h ⊢

/-- Settles O28: neither progress nor a fault changes a flag that is not the command's. -/
theorem flagsChangeOnlyByTheirCommands : Obligations.FlagsChangeOnlyByTheirCommands := by
  intro s t hstep
  constructor
  · exact writtenBy_of_ne (view := State.c) (fun _ _ ⟨_, hc, _⟩ => hc)
      (fun i p q h => progress_c i p q (flagOf_ne_carry h)) (fun _ _ _ _ h => takeFault_c (flagOf_ne_carry h)) hstep
  · exact writtenBy_of_ne (view := State.cmpr) (fun _ _ ⟨_, _, hm⟩ => hm)
      (fun i p q h => progress_cmpr i p q (flagOf_ne_comparison h))
      (fun _ _ _ _ h => takeFault_cmpr (flagOf_ne_comparison h)) hstep

/-! ### The progress of a command in flight -/

/-- What the sampler's progress can be: none, one random word taken, or the write of the candidate and completion. -/
theorem sampleProgress_cases (rd : Reg) (n : Nat) (p : Latch) (s : State) :
    sampleProgress rd n p s = s ∨ (∃ g w ws, sampleProgress rd n p s = afterDraw p.a.toNat g w ws s) ∨
    ∃ g, sampleProgress rd n p s = complete (writeWords rd n g s) := by
  by_cases hl : (samplerOf p.a.toNat s).left = 0
  · exact .inr (.inr ⟨_, sampleProgress_of_accepted rfl hl⟩)
  · cases hq : s.rngQueue with
    | nil => exact .inl (sampleProgress_of_starved rfl hl hq)
    | cons w ws => exact .inr (.inl ⟨_, _, _, sampleProgress_of_word rfl hl hq⟩)

/-- The fields of the state that the progress of a command can change. -/
theorem progressOf_changes (i : Instr) (p : Latch) (s : State) :
    ∃ v c cmpr pending sampler queue cursor,
      progressOf i p s = { s with
        v := v, c := c, cmpr := cmpr, pending := pending, sampler := sampler, rngQueue := queue, rngCursor := cursor } := by
  cases i
  case smp rd rs1 la =>
    rw [progressOf]
    rcases sampleProgress_cases rd (limbs la) p s with h | ⟨g, w, ws, h⟩ | ⟨g, h⟩ <;> rw [h] <;>
      exact ⟨_, _, _, _, _, _, _, rfl⟩
  all_goals exact ⟨_, _, _, _, _, _, _, rfl⟩

/-- Every limb of the destination `d` is defined. -/
def DefinedDest (s : State) (d : Reg × Nat) : Prop := ∀ j < d.2, ∃ w, s.limb d.1 j = .word w

theorem definedDest_complete {s : State} {d : Reg × Nat} : DefinedDest (complete s) d ↔ DefinedDest s d := Iff.rfl

theorem definedDest_withC {s : State} {x : Bool} {d : Reg × Nat} :
    DefinedDest { s with c := x } d ↔ DefinedDest s d := Iff.rfl

theorem definedDest_writeWords (r : Reg) {n : Nat} (g : Nat → Word) (s : State) (hn : n ≤ 8) :
    DefinedDest (writeWords r n g s) (r, n) := fun j hj =>
  ⟨g j, (limb_writeWords r r n g j s hn).trans (if_pos ⟨rfl, hj⟩)⟩

/-- A write of words leaves a defined destination defined. -/
theorem DefinedDest.writeWords {s : State} {d : Reg × Nat} (h : DefinedDest s d) (r : Reg) {n : Nat} (g : Nat → Word)
    (hn : n ≤ 8) : DefinedDest (writeWords r n g s) d := by
  intro j hj
  rw [limb_writeWords _ _ _ _ _ _ hn]
  split
  · exact ⟨_, rfl⟩
  · exact h j hj

/-- A row whose low limbs are all defined holds a number over them. -/
theorem isSome_definedValue {row : Vector Limb 8} {n : Nat} (h : ∀ j < n, ∃ w, limbAt row j = .word w) :
    (definedValue row n).isSome := by
  induction n with
  | zero => rfl
  | succ n ih =>
    obtain ⟨x, hx⟩ := Option.isSome_iff_exists.mp (ih fun j hj => h j (Nat.lt_succ_of_lt hj))
    obtain ⟨w, hw⟩ := h n (Nat.lt_succ_self n)
    simp [definedValue, hx, hw]

/-- Progress that completes writes words to every destination. -/
theorem progressOf_defines {i : Instr} {p q : Latch} {s : State} (hp : s.pending = some q)
    (hdone : (progressOf i p s).pending = none) : ∀ d ∈ destsOf i, DefinedDest (progressOf i p s) d := by
  cases i <;>
    simp only [destsOf, List.mem_cons, List.not_mem_nil, or_false, forall_eq_or_imp, forall_eq, progressOf, lanewise, wrL,
      definedDest_complete, definedDest_withC] at hdone ⊢
  case smp rd rs1 la =>
    rcases sampleProgress_cases rd (limbs la) p s with h | ⟨g, w, ws, h⟩ | ⟨g, h⟩ <;> rw [h] at hdone ⊢
    · simp [hp] at hdone
    · simp [afterDraw, hp] at hdone
    · exact definedDest_writeWords rd g s (limbs_le la)
  case mulf rd rd2 _ _ la _ =>
    exact ⟨(definedDest_writeWords rd _ s (limbs_le la)).writeWords _ _ (limbs_le la),
      definedDest_writeWords rd2 _ _ (limbs_le la)⟩
  case divr rd rd2 _ _ la _ =>
    exact ⟨(definedDest_writeWords rd _ s (limbs_le la)).writeWords _ _ (limbs_le la),
      definedDest_writeWords rd2 _ _ (limbs_le la)⟩
  case zero => exact definedDest_writeWords _ _ s (le_refl 8)
  case ldw => exact definedDest_writeWords _ _ s (le_refl 8)
  case ldb => exact definedDest_writeWords _ _ s (le_refl 8)
  case cmp => exact fun _ h => h.elim
  all_goals exact definedDest_writeWords _ _ s (limbs_le _)

/-- Settles O27: a completion defines the limbs of each destination, and so the register's value. -/
theorem completionDefinesTheDestinations : Obligations.CompletionDefinesTheDestinations := by
  intro i s t hf hb he hdone d hd
  obtain ⟨p, hp⟩ := Option.isSome_iff_exists.mp hb
  rw [exec_inFlight i hf hp] at he
  cases he
  have hdef := progressOf_defines hp (by simpa [State.busy] using hdone) d hd
  exact ⟨hdef, isSome_definedValue hdef⟩

theorem wrL_withRead (r : Reg) (n y : Nat) (s : State) (x : Word) (m : Nat) :
    wrL r n y { s with rdata := x, draws := m } = { wrL r n y s with rdata := x, draws := m } := rfl

/-- Progress neither looks at nor changes the read data and the counter of free values. -/
theorem progressOf_withRead (i : Instr) (p : Latch) (s : State) (x : Word) (m : Nat) :
    progressOf i p { s with rdata := x, draws := m } = { progressOf i p s with rdata := x, draws := m } := by
  cases i
  case smp rd rs1 la =>
    simp only [progressOf, sampleProgress]
    split
    · rfl
    · split <;> rfl
  case add => simp only [progressOf, wrL_withRead, complete]
  case sub => simp only [progressOf, wrL_withRead, complete]
  all_goals rfl

/-- Settles O30: a read changes the read data and the counter alone, and progress passes over both. -/
theorem readsDoNotDisturbTheCommandInFlight : Obligations.ReadsDoNotDisturbTheCommandInFlight := by
  intro s u p o w hf hp he
  have hf' : (busRead o w s).fault = false := by rw [busRead_eq]; exact hf
  have hp' : (busRead o w s).pending = some p := by rw [busRead_eq]; exact hp
  have hread := progressOf_withRead p.cmd p s (busRead o w s).rdata (busRead o w s).draws
  rw [← busRead_eq] at hread
  rw [exec_inFlight p.cmd hf hp] at he
  cases he
  rw [exec_inFlight p.cmd hf' hp', hread]

/-! ### The registers that a host reads (spec/10_state.md R21, R28 to R32) -/

/-- What `exec` does: on a faulted unit nothing, on a ready one the offer, with a command in flight its progress. -/
theorem exec_cases (i : Instr) (s : State) :
    (s.fault = true ∧ exec i s = .next s) ∨
    (s.Ready ∧ exec i s = .next (issue i (wordCheck s i) (valueCheck i) s)) ∨
    ∃ p, s.fault = false ∧ s.pending = some p ∧ exec i s = .next (progressOf i p s) := by
  cases hf : s.fault
  · cases hp : s.pending with
    | none => exact .inr (.inl ⟨⟨hf, hp⟩, exec_of_ready i ⟨hf, hp⟩⟩)
    | some p => exact .inr (.inr ⟨p, rfl, rfl, exec_inFlight i hf hp⟩)
  · exact .inl ⟨rfl, exec_of_fault i hf⟩

/-- No command writes DATA, BYTELEN or BYTEBUF. -/
theorem exec_keeps_hostRegisters {i : Instr} {s t : State} (h : exec i s = .next t) :
    t.data = s.data ∧ t.bytelen = s.bytelen ∧ t.bytebuf = s.bytebuf := by
  rcases exec_cases i s with ⟨-, he⟩ | ⟨-, he⟩ | ⟨p, -, -, he⟩ <;> cases he.symm.trans h
  · exact ⟨rfl, rfl, rfl⟩
  · rcases issue_cases i (wordCheck s i) (valueCheck i) s with ⟨k, -, h⟩ | ⟨k, -, -, h⟩ | ⟨-, -, h⟩ <;> rw [h] <;>
      simp [takeCommandFault]
  · obtain ⟨v, c, m, pending, g, ws, n, h⟩ := progressOf_changes i p s
    rw [h]
    exact ⟨rfl, rfl, rfl⟩

theorem busRead_bytebuf {o : BitVec 10} {j : Nat} (hj : j < 8) (ho : o.toNat = 0x040 + 8 * j) (s : State) :
    busRead o 8 s = { s with rdata := wordAt s.bytebuf j } := by
  have h8 : o.toNat % 8 = 0 := by omega
  simp only [busRead, conforming, h8, windowReg_eq h8 (.bytebuf j hj ho), and_self, decide_true, if_true]

/-- A ready unit makes a write that a command in flight would guard. -/
theorem guardedWrite_of_ready {s : State} (h : s.Ready) (o : BitVec 10) (write : Out) :
    (if s.fault then .next s else guardedWrite o s write) = write := by
  simp [h.1, guardedWrite, h.2]

theorem busWrite_data {s : State} (h : s.Ready) (v : Word) : busWrite 0x010 8 v s = .next { s with data := v } :=
  guardedWrite_of_ready h 0x010 _

theorem busWrite_bytelen {s : State} (h : s.Ready) (v : Word) : busWrite 0x018 8 v s = .next { s with bytelen := v } :=
  guardedWrite_of_ready h 0x018 _

theorem busWrite_bytebuf {s : State} (h : s.Ready) {o : BitVec 10} {j : Nat} (hj : j < 8) (ho : o.toNat = 0x040 + 8 * j)
    (v : Word) : busWrite o 8 v s = .next { s with bytebuf := setWord s.bytebuf j v } := by
  have h8 : o.toNat % 8 = 0 := by omega
  simp only [busWrite, conforming, h8, windowReg_eq h8 (.bytebuf j hj ho), and_self, decide_true, if_true]
  exact guardedWrite_of_ready h o _

/-- Settles O23: each read and write is its register's, and `exec_keeps_hostRegisters` speaks for the commands. -/
theorem hostRegistersReadBack : Obligations.HostRegistersReadBack := by
  refine ⟨fun s => ⟨rfl, rfl, rfl, rfl, fun o j hj ho => busRead_bytebuf hj ho s⟩, fun s v o hr ho => ?_,
    fun i s t => exec_keeps_hostRegisters⟩
  obtain rfl | rfl | ⟨h1, h2, h8⟩ := ho
  · exact ⟨_, busWrite_data hr v, rfl, by simp, fun _ => rfl, fun _ _ _ => rfl, rfl, rfl, rfl, rfl, rfl⟩
  · exact ⟨_, busWrite_bytelen hr v, rfl, fun _ => rfl, by simp, fun _ _ _ => rfl, rfl, rfl, rfl, rfl, rfl⟩
  · obtain ⟨j, hj, ho⟩ : ∃ j < 8, o.toNat = 0x040 + 8 * j := ⟨(o.toNat - 0x040) / 8, by omega, by omega⟩
    refine ⟨_, busWrite_bytebuf hr hj ho v, ?_, fun _ => rfl, fun _ => rfl, fun k hk hne => ?_, rfl, rfl, rfl, rfl, rfl⟩
    · rw [busRead_bytebuf hj ho]
      exact (wordAt_setWord ..).trans (if_pos ⟨rfl, hj⟩)
    · refine (wordAt_setWord ..).trans (if_neg ?_)
      rintro ⟨rfl, -⟩
      exact hne ho

/-- Settles O22: the step is the read, and the read is of a constant. -/
theorem paramReadsItsConstant : Obligations.ParamReadsItsConstant := by
  intro s rest hi hr
  simp only [step, hi, react, busAccess, hr, Bool.false_eq_true, if_false]
  rfl

/-- The fields of STATUS, and its bits that read as 0 (spec/10_state.md R21). -/
theorem statusWord_fields (s : State) :
    (statusWord s).extractLsb' 0 1 = BitVec.ofBool s.busy ∧ (statusWord s).extractLsb' 1 1 = BitVec.ofBool s.fault ∧
    (statusWord s).extractLsb' 2 1 = BitVec.ofBool s.c ∧ (statusWord s).extractLsb' 3 2 = s.cmpr.code ∧
    (statusWord s).extractLsb' 5 3 = 0#3 ∧ (statusWord s).extractLsb' 8 4 = s.fcause ∧
    (statusWord s).extractLsb' 12 52 = 0#52 := by
  simp (disch := decide) only [statusWord, BitVec.extractLsb'_append_eq_of_le, BitVec.extractLsb'_append_eq_of_add_le,
    Nat.sub_self, Nat.reduceSub, BitVec.extractLsb'_eq_self, and_self]

/-- A one-bit field is the bit at its offset. -/
theorem getLsbD_of_extractLsb'_eq {x : Word} {n : Nat} {b : Bool} (h : x.extractLsb' n 1 = BitVec.ofBool b) :
    x.getLsbD n = b := by
  simpa [-BitVec.getLsbD_eq_getElem] using congrArg (BitVec.getLsbD · 0) h

/-- Settles O21: the word read is `statusWord`, and its fields are those of `statusWord_fields`. -/
theorem statusReadsItsFields : Obligations.StatusReadsItsFields := by
  intro s
  obtain ⟨hbusy, hfault, hc, hcmpr, hlow, hcause, hhigh⟩ := statusWord_fields s
  refine ⟨getLsbD_of_extractLsb'_eq hbusy, getLsbD_of_extractLsb'_eq hfault, getLsbD_of_extractLsb'_eq hc, hcmpr.trans ?_,
    hlow, hcause, hhigh, fun _ => rfl, by decide⟩
  cases s.cmpr <;> rfl

end Sys2Proof.Machine

/-! # Proofs about the register window (spec/20_memory.md): its place, its access rules, the step that takes an access -/

namespace Sys2Proof.Machine

/-! ### Accesses by what they select (spec/20_memory.md R40, R41) -/

theorem conforming_of_aligned {o : BitVec 10} (h8 : o.toNat % 8 = 0) : conforming o 8 = true := by
  simp [conforming, h8]

theorem conforming_eq_false {o : BitVec 10} {w : Nat} (h : w ≠ 8 ∨ o.toNat % 8 ≠ 0) : conforming o w = false := by
  simpa [conforming, imp_iff_not_or] using h

theorem busRead_of_not_conforming {o : BitVec 10} {w : Nat} (h : w ≠ 8 ∨ o.toNat % 8 ≠ 0) (s : State) :
    busRead o w s = { s with rdata := 0 } := by
  simp [busRead, conforming_eq_false h]

theorem busWrite_of_not_conforming {o : BitVec 10} {w : Nat} (h : w ≠ 8 ∨ o.toNat % 8 ≠ 0) (v : Word) (s : State) :
    busWrite o w v s = .next s := by
  simp [busWrite, conforming_eq_false h]

section
variable {o : BitVec 10} (h8 : o.toNat % 8 = 0)
include h8

/-- A write to a read-only or reserved offset has no effect. -/
theorem busWrite_readOnly
    (h : o.toNat = 0x008 ∨ o.toNat = 0x020 ∨ o.toNat = 0x030 ∨ o.toNat = 0x038 ∨ (0x080 ≤ o.toNat ∧ o.toNat < 0x400))
    (v : Word) (s : State) : busWrite o 8 v s = .next s := by
  have hs := windowReg_selects h8
  simp only [busWrite, conforming_of_aligned h8, if_true]
  generalize windowReg o = q at hs ⊢
  cases hs with
  | status | fcmd | param | reserved | vwin => rfl
  | cmd ho | data ho | bytelen ho | ctrl ho | bytebuf j hj ho => omega

/-- A read of a write-only or reserved offset returns 0. -/
theorem busRead_writeOnly
    (h : o.toNat = 0x000 ∨ o.toNat = 0x028 ∨ o.toNat = 0x038 ∨ (0x080 ≤ o.toNat ∧ o.toNat < 0x100) ∨
      (0x300 ≤ o.toNat ∧ o.toNat < 0x400)) (s : State) : busRead o 8 s = { s with rdata := 0 } := by
  have hs := windowReg_selects h8
  simp only [busRead, conforming_of_aligned h8, if_true]
  generalize windowReg o = q at hs ⊢
  cases hs with
  | cmd | ctrl | reserved => rfl
  | status ho | data ho | bytelen ho | fcmd ho | param ho | bytebuf j hj ho | vwin r i ho => omega

/-- With a command in flight a write to CMD, DATA, BYTELEN or BYTEBUF takes BUSY_WRITE. -/
theorem busWrite_inFlight {s : State} {p : Latch} (hf : s.fault = false) (hp : s.pending = some p)
    (h : o.toNat = 0x000 ∨ o.toNat = 0x010 ∨ o.toNat = 0x018 ∨ (0x040 ≤ o.toNat ∧ o.toNat < 0x080)) (v : Word) :
    busWrite o 8 v s = .next (busyWriteFault o p s) := by
  have hs := windowReg_selects h8
  simp only [busWrite, conforming_of_aligned h8, if_true, hf, Bool.false_eq_true, if_false, guardedWrite, hp]
  generalize windowReg o = q at hs ⊢
  cases hs with
  | cmd | data | bytelen | bytebuf => rfl
  | status ho | fcmd ho | ctrl ho | param ho | vwin r i ho | reserved ho => omega

end

/-- Settles O19: each rule is the access lemma of its offsets; a faulted unit's is `busWrite_of_fault`. -/
theorem windowAccessRules : Obligations.WindowAccessRules := by
  intro o w v s n
  refine ⟨fun h => ⟨busWrite_of_not_conforming h v s, busRead_of_not_conforming h s⟩, fun h8 =>
    ⟨fun h => busWrite_readOnly h8 h v s, fun h => busRead_writeOnly h8 h s, fun hf hctrl => ?_, fun p hf hp h => ?_⟩⟩
  · refine (busWrite_of_fault hf o 8 v).resolve_right ?_
    rintro ⟨rfl, -⟩
    exact hctrl rfl
  · exact ⟨_, busWrite_inFlight h8 hf hp h v, faultEntry_takeFault _ _ _ _ _ (destsOf_le p.cmd)⟩

/-- Settles O20: `busRead_eq` names the only two fields that a read changes. -/
theorem readsHaveNoSideEffect : Obligations.ReadsHaveNoSideEffect := by
  intro o w s
  rw [busRead_eq]

/-! ### VWIN (spec/20_memory.md R42) -/

theorem readVwin_of_word {r : Reg} {i : Nat} {s : State} {w : Word} (hb : s.busy = false) (hl : s.limb r i = .word w) :
    readVwin r i s = { s with rdata := w } := by
  simp only [readVwin, hb, hl, Bool.false_eq_true, if_false]

/-- While BUSY = 1, or where the limb is UNDEF, the value read is a free one, drawn afresh. -/
theorem readVwin_unspecified {r : Reg} {i : Nat} {s : State} (h : s.busy = true ∨ s.limb r i = .undef) :
    readVwin r i s = { s with rdata := Config.freeWord s.draws, draws := s.draws + 1 } := by
  unfold readVwin
  split
  case isTrue => rfl
  case isFalse hb => simp only [h.resolve_left hb]

theorem busRead_vwin {o : BitVec 10} {r i : Fin 8} (ho : o.toNat = 0x100 + 0x40 * r.val + 8 * i.val) (s : State) :
    busRead o 8 s = readVwin r i.val s := by
  have h8 : o.toNat % 8 = 0 := by omega
  simp only [busRead, conforming_of_aligned h8, windowReg_eq h8 (.vwin r i ho), if_true]

/-- Settles O24: the offset selects the limb, and the two kinds of its read are those of `readVwin`. -/
theorem vwinReadsTheLimb : Obligations.VwinReadsTheLimb := by
  intro s r i o ho
  rw [busRead_vwin ho]
  exact ⟨fun hb _ hl => readVwin_of_word hb hl, readVwin_unspecified,
    fun v => busWrite_readOnly (by omega) (by omega) v s⟩

/-! ### The step that takes a host access (spec/20_memory.md R50, spec/60_exceptions.md R98) -/

theorem busAccess_of_rst_low {s : State} (hr : s.rst = false) (access : Out) : busAccess s access = access := by
  simp [busAccess, hr]

theorem step_cons {s : State} {e : Input} {rest : List Input} (hi : s.inputs = e :: rest) :
    step s = react e { s with inputs := rest } := by
  simp only [step, hi]

theorem step_write {s : State} {rest : List Input} {o : BitVec 10} {w : Nat} {v : Word} (hr : s.rst = false)
    (hi : s.inputs = .write o w v :: rest) : step s = busWrite o w v { s with inputs := rest } :=
  (step_cons hi).trans (busAccess_of_rst_low hr _)

theorem step_read {s : State} {rest : List Input} {o : BitVec 10} {w : Nat} (hr : s.rst = false)
    (hi : s.inputs = .read o w :: rest) : step s = .next (busRead o w { s with inputs := rest }) :=
  (step_cons hi).trans (busAccess_of_rst_low hr _)

/-- A CMD write to a ready unit offers the value written. -/
theorem busWrite_cmd {s : State} (h : s.Ready) (c : Word) : busWrite 0x000 8 c s = offerCommand c s :=
  guardedWrite_of_ready h 0x000 _

theorem offerCommand_of_decode {c : Word} {i : Instr} (h : decode c = .ok i) (s : State) :
    offerCommand c s = exec i s := by
  simp only [offerCommand, h]

/-- Settles O6: the step is the access, and a CMD write's access is the offer of the command. -/
theorem stepRunsTheOfferedCommand : Obligations.StepRunsTheOfferedCommand := by
  intro s rest hr
  refine ⟨fun _ _ => step_read hr, fun _ _ _ => step_write hr, fun c i hi hready hd => ?_⟩
  calc step s = busWrite 0x000 8 c { s with inputs := rest } := step_write hr hi
    _ = offerCommand c { s with inputs := rest } := busWrite_cmd (s := { s with inputs := rest }) hready c
    _ = exec i { s with inputs := rest } := offerCommand_of_decode hd _

/-! ### The window's place (spec/20_memory.md R39) -/

theorem windowOffset_base_add (o : BitVec 10) : windowOffset (Config.base + o.toNat) = some o := by
  have hin : Config.base ≤ Config.base + o.toNat ∧ Config.base + o.toNat < Config.base + 0x400 := by omega
  rw [windowOffset, if_pos hin, Nat.add_sub_cancel_left, BitVec.ofNat_toNat, BitVec.setWidth_eq]

theorem windowOffset_of_outside {addr : Nat} (h : addr < Config.base ∨ Config.base + 0x400 ≤ addr) :
    windowOffset addr = none :=
  if_neg (by omega)

/-- Settles O25: BASE is 0x400 times a number, and the two lemmas on `windowOffset` are the inside and the outside. -/
theorem windowIsOneKiloByteAtBase : Obligations.WindowIsOneKiloByteAtBase :=
  ⟨Nat.mul_mod_right 0x400 Config.baseIndex, windowOffset_base_add, fun _ => windowOffset_of_outside⟩

end Sys2Proof.Machine

/-! # Proofs about the encoding (spec/30_encoding.md R55 to R65): decoder against encoder -/

namespace Sys2Proof

/-! ### The decoder, a lemma for each answer of R63 -/

/-- R63 step 2: a word that matches a row under its mask is that row's command. -/
theorem decode_of_match {op : Opcode} {c : BitVec 64} (hi : c.extractLsb' 32 32 = 0)
    (hm : c.extractLsb' 0 32 &&& op.mask = op.matchBits) : decode c = .ok (operandsOf op (c.extractLsb' 0 32)) := by
  simp only [decode, hi, if_true, decodeWord, opc_of_match hm, Opcode.ofBits_bits, hm]

theorem Opcode.ofBits_eq_none_iff {b : BitVec 6} : Opcode.ofBits b = none ↔ ∀ op : Opcode, b ≠ op.bits := by
  constructor
  · exact fun h op => (Opcode.bits_ne_of_ofBits_none h op).symm
  · intro h
    cases hb : Opcode.ofBits b with
    | none => rfl
    | some op => exact absurd (Opcode.bits_of_ofBits hb).symm (h op)

/-- R63 step 1: a word whose OPC is no row's is ILLEGAL_OPCODE. -/
theorem decode_of_no_row {c : BitVec 64} (hi : c.extractLsb' 32 32 = 0)
    (h : ∀ op : Opcode, (c.extractLsb' 0 32).extractLsb' 0 6 ≠ op.bits) : decode c = .error .illegalOpcode := by
  simp only [decode, hi, if_true, decodeWord, Opcode.ofBits_eq_none_iff.mpr h]

/-- What a decoded value is: the high half 0, and the low half a match of the row of the command it decodes to. -/
theorem decode_eq_ok {c : BitVec 64} {i : Instr} (h : decode c = .ok i) :
    c.extractLsb' 32 32 = 0 ∧ ∃ op : Opcode, c.extractLsb' 0 32 &&& op.mask = op.matchBits ∧
      operandsOf op (c.extractLsb' 0 32) = i := by
  unfold decode at h
  split at h
  case isFalse => cases h
  case isTrue hi =>
    unfold decodeWord at h
    split at h
    case h_1 => cases h
    case h_2 op _ =>
      split at h
      case isFalse => cases h
      case isTrue hm => exact ⟨hi, op, hm, Except.ok.inj h⟩

/-! ### Encode, then decode -/

/-- Every command's word matches the row of its opcode (R60). -/
theorem encode_matches (i : Instr) : encode i &&& i.opcode.mask = i.opcode.matchBits := by
  cases i with
  | zero => exact Laws.MatchesItsRow.zero _
  | ldw => exact Laws.MatchesItsRow.ldw _
  | ldb => exact Laws.MatchesItsRow.ldb _
  | add => exact Laws.MatchesItsRow.add ..
  | sub => exact Laws.MatchesItsRow.sub ..
  | cmp => exact Laws.MatchesItsRow.cmp ..
  | shl => exact Laws.MatchesItsRow.shl ..
  | shr => exact Laws.MatchesItsRow.shr ..
  | bitAnd => exact Laws.MatchesItsRow.bitAnd ..
  | bitOr => exact Laws.MatchesItsRow.bitOr ..
  | bitXor => exact Laws.MatchesItsRow.bitXor ..
  | bitNot => exact Laws.MatchesItsRow.bitNot ..
  | mul => exact Laws.MatchesItsRow.mul ..
  | mulf => exact Laws.MatchesItsRow.mulf ..
  | div => exact Laws.MatchesItsRow.div ..
  | rem => exact Laws.MatchesItsRow.rem ..
  | divr => exact Laws.MatchesItsRow.divr ..
  | smp => exact Laws.MatchesItsRow.smp ..

/-- The operand fields of a command's word are the command's operands: format S for the shifts, format R for the rest. -/
theorem operandsOf_encode (i : Instr) : operandsOf i.opcode (encode i) = i := by
  cases i with
  | shl | shr => simp only [Instr.opcode, operandsOf, encode, formatS_fields]
  | zero | ldw | ldb | add | sub | cmp | bitAnd | bitOr | bitXor | bitNot | mul | mulf | div | rem | divr | smp =>
    simp only [Instr.opcode, operandsOf, encode, formatR_fields]

/-- The decoder undoes the encoder. -/
theorem decode_cmdValue (i : Instr) : decode (cmdValue i) = .ok i := by
  obtain ⟨hi, hw⟩ := cmdValue_halves i
  rw [decode_of_match hi (op := i.opcode) (by rw [hw, encode_matches]), hw, operandsOf_encode]

/-- Settles O1: the word matches its row, and its fields are the operands. -/
theorem decodeOfEncodeIsTheCommand : Obligations.DecodeOfEncodeIsTheCommand := decode_cmdValue

/-! ### Decode, then encode -/

/-- Above OPC a row's fixed bits are 0. -/
theorem Opcode.extractLsb'_matchBits (op : Opcode) {lo len : Nat} (hlo : 6 ≤ lo) : op.matchBits.extractLsb' lo len = 0 := by
  ext j hj
  simp [Opcode.matchBits, BitVec.getLsbD_of_ge op.bits (lo + j) (by omega)]

/-- A field that R60 reserves is 0 in a matching word. -/
theorem reserved_eq_zero {op : Opcode} {w : BitVec 32} (h : w &&& op.mask = op.matchBits) {lo len : Nat} (hlo : 6 ≤ lo)
    (hm : op.mask.extractLsb' lo len = BitVec.allOnes len) : w.extractLsb' lo len = 0 := by
  rw [← BitVec.and_allOnes (x := w.extractLsb' lo len), ← hm, ← BitVec.extractLsb'_and, h, op.extractLsb'_matchBits hlo]

theorem field3_reserved {op : Opcode} {w : BitVec 32} (h : w &&& op.mask = op.matchBits) {lo : Nat} (hlo : 6 ≤ lo)
    (hm : op.mask.extractLsb' lo 3 = BitVec.allOnes 3) : field3 w lo = 0 := by
  rw [field3, reserved_eq_zero h hlo hm]
  rfl

/-- A word without bits above LB is format R of its own fields (R56). -/
theorem formatR_of_fields {op : Opcode} {w : BitVec 32} (hopc : w.extractLsb' 0 6 = op.bits) (htop : w.extractLsb' 24 8 = 0) :
    formatR op (fieldRD w) (fieldRS1 w) (fieldRS2 w) (fieldRD2 w) (fieldLA w) (fieldLB w) = w := by
  have htop : 0#8 = w.extractLsb' 24 8 := htop.symm
  simp only [formatR, ← hopc, htop, fieldRD, fieldRS1, fieldRS2, fieldRD2, fieldLA, fieldLB, field3, BitVec.ofFin_toFin]
  simp (disch := decide) only [BitVec.extractLsb'_append_extractLsb'_eq_extractLsb', BitVec.extractLsb'_eq_self]

/-- A word without bits between RS1 and LA is format S of its own fields (R57). -/
theorem formatS_of_fields {op : Opcode} {w : BitVec 32} (hopc : w.extractLsb' 0 6 = op.bits) (hmid : w.extractLsb' 12 6 = 0) :
    formatS op (fieldRD w) (fieldRS1 w) (fieldLA w) (fieldSHAMT w) = w := by
  have hmid : 0#6 = w.extractLsb' 12 6 := hmid.symm
  simp only [formatS, ← hopc, hmid, fieldRD, fieldRS1, fieldLA, fieldSHAMT, field3, BitVec.ofFin_toFin]
  simp (disch := decide) only [BitVec.extractLsb'_append_extractLsb'_eq_extractLsb', BitVec.extractLsb'_eq_self]

/-- A matching word is the one its command is written with. -/
theorem encode_operandsOf {op : Opcode} {w : BitVec 32} (h : w &&& op.mask = op.matchBits) : encode (operandsOf op w) = w := by
  have hopc := opc_of_match h
  cases op with
  | shl | shr => exact formatS_of_fields hopc (reserved_eq_zero h (by decide) (by decide))
  | zero | ldw | ldb | add | sub | cmp | bitAnd | bitOr | bitXor | bitNot | mul | mulf | div | rem | divr | smp =>
    refine Eq.trans ?_ (formatR_of_fields hopc (reserved_eq_zero h (by decide) (by decide)))
    simp (disch := decide) only [encode, operandsOf, fieldRD, fieldRS1, fieldRS2, fieldRD2, fieldLA, fieldLB,
      field3_reserved h]

/-- A CMD value with the high half 0 is its low half, zero-extended (R55). -/
theorem setWidth_low {c : BitVec 64} (hi : c.extractLsb' 32 32 = 0) : (c.extractLsb' 0 32).setWidth 64 = c :=
  calc (c.extractLsb' 0 32).setWidth 64 = 0#32 ++ c.extractLsb' 0 32 := BitVec.setWidth_eq_append (by decide)
    _ = c.extractLsb' 32 32 ++ c.extractLsb' 0 32 := by rw [hi]; rfl
    _ = c := by
      simp (disch := decide) only [BitVec.extractLsb'_append_extractLsb'_eq_extractLsb', BitVec.extractLsb'_eq_self]

/-- Settles O2: `decode_eq_ok` gives the match, and a matching word encodes to itself. -/
theorem legalCommandValuesAreUnique : Obligations.LegalCommandValuesAreUnique := by
  intro c i h
  obtain ⟨hi, op, hm, rfl⟩ := decode_eq_ok h
  rw [cmdValue, encode_operandsOf hm, setWidth_low hi]

/-- Settles O3: one lemma for each answer of R63. -/
theorem decodingFollowsTheTable : Obligations.DecodingFollowsTheTable := by
  intro c w
  refine ⟨decode_of_high_ne_zero, fun hi => ⟨fun op => decode_of_match hi, fun op hopc hm => ?_, decode_of_no_row hi⟩⟩
  refine decode_of_reserved_ne_zero ?_ hi hm
  rwa [BitVec.extractLsb'_extractLsb'_of_le (by decide)] at hopc

/-! ### The opcode space and the example words -/

/-- Settles O4, by evaluating all 64 OPC values. -/
theorem unassignedOpcodesAreListed : Obligations.UnassignedOpcodesAreListed := by
  unfold Obligations.UnassignedOpcodesAreListed
  decide

/-- Settles O5: each word but 0 is the CMD value of its command, and `decode_cmdValue` decodes it. -/
theorem exampleWordsDecode : Obligations.ExampleWordsDecode :=
  ⟨decode_cmdValue (Machine.asmRegs .add 2 0 1), decode_cmdValue (.shl 1 0 72 7), decode_cmdValue (.mulf 2 3 0 1 0 0),
    decode_cmdValue (Machine.macroMov 0 1), by decide⟩

end Sys2Proof

/-! # Proofs about the host's macros (spec/30_encoding.md R65): MOV and LBYTES -/

namespace Sys2Proof.Machine

/-! ### MOV -/

/-- Settles O42: both operands are `x`, and `x ||| x = x` in every limb. -/
theorem movCopiesTheRegister : Obligations.MovCopiesTheRegister := by
  intro vd vs l s x h hx
  let la := defaultLa l
  let i := macroMov vd vs l
  have hread (k : Nat) : rdL s.v[vs] k (limbs la) = x := rdL_eq_of_definedValue hx k
  have ha : (latchOf i s).a.toNat = x := (latchOf_a (la := la) rfl).trans (hread _)
  have hb : (latchOf i s).b.toNat = x := (latchOf_b (lb := la) rfl).trans (hread _)
  have hlt : x < 2 ^ (64 * limbs la) := hread 0 ▸ rdL_lt ..
  have hu : exec i (accepted i s) = .next (complete (wrL vd (limbs la) x (accepted i s))) :=
    calc exec i (accepted i s) = .next (lanewise (fun x y => x ||| y) vd (limbs la) (latchOf i s) (accepted i s)) :=
          exec_accepted i h
      _ = _ := by simp only [lanewise, ha, hb, BitVec.or_self]; rfl
  obtain ⟨u, hdone, hvalue, hframe⟩ := completes_value i h (if_pos rfl) rfl (limbs_le la) hu
  exact ⟨u, hdone, by rw [hvalue, Nat.mod_eq_of_lt hlt], hframe⟩

/-! ### Big-endian numbers (spec/20_memory.md R44) -/

/-- The big-endian number of a byte sequence. -/
def bigEndian (b : List Byte) : Nat := b.foldl (fun acc x => acc * 256 + x.toNat) 0

theorem bigEndian_concat (b : List Byte) (x : Byte) : bigEndian (b ++ [x]) = bigEndian b * 256 + x.toNat := by
  simp [bigEndian]

theorem bigEndian_lt (b : List Byte) : bigEndian b < 2 ^ (8 * b.length) := by
  induction b using List.reverseRecOn with
  | nil => simp [bigEndian]
  | append_singleton b x ih =>
    have hx := x.isLt
    rw [bigEndian_concat, List.length_append, List.length_singleton, Nat.mul_add, Nat.pow_add]
    omega

/-- Digit `m` of a big-endian number, counted from the top, is byte `m`. -/
theorem bigEndian_digit (b : List Byte) (m : Nat) (hm : m < b.length) :
    bigEndian b / 256 ^ (b.length - 1 - m) % 256 = b[m].toNat := by
  induction b using List.reverseRecOn with
  | nil => simp at hm
  | append_singleton b x ih =>
    have hx : x.toNat < 256 := x.isLt
    rw [bigEndian_concat, List.length_append, List.length_singleton, Nat.add_sub_cancel]
    rcases Nat.lt_or_eq_of_le (Nat.le_of_lt_succ (by simpa using hm)) with h | rfl
    · have he : b.length - m = 1 + (b.length - 1 - m) := by omega
      have hdiv : (bigEndian b * 256 + x.toNat) / 256 = bigEndian b := by omega
      rw [he, Nat.pow_add, Nat.pow_one, ← Nat.div_div_eq_div_mul, hdiv, ih h, List.getElem_append_left h]
    · simp only [Nat.sub_self, Nat.pow_zero, Nat.div_one, List.getElem_concat_length]
      omega

/-- The first bytes of BYTEBUF as the number that LDB makes of them. -/
theorem bytesValue_eq_bigEndian (buf : Vector Word 8) (n : Nat) :
    bytesValue buf n = bigEndian ((List.range n).map (byteAt buf)) := by
  induction n with
  | zero => rfl
  | succ n ih => rw [bytesValue, ih, List.range_succ, List.map_append, List.map_singleton, bigEndian_concat]

theorem bytesValue_lt (buf : Vector Word 8) (n : Nat) : bytesValue buf n < 2 ^ (8 * n) := by
  simpa [bytesValue_eq_bigEndian] using bigEndian_lt ((List.range n).map (byteAt buf))

theorem packWord_eq_bigEndian (b : List Byte) (j : Nat) :
    packWord b j = BitVec.ofNat 64 (bigEndian ((List.range 8).map fun m => b.getD (8 * j + m) 0)) := by
  rw [packWord, bigEndian, List.foldl_map]

/-- Byte `m` of the word that LBYTES packs from index `8j` on, where R32 places it. -/
theorem packWord_byte (b : List Byte) (j m : Nat) (hm : m < 8) :
    (packWord b j).extractLsb' (56 - 8 * m) 8 = b.getD (8 * j + m) 0 := by
  let ws := (List.range 8).map fun m => b.getD (8 * j + m) 0
  have hlen : ws.length = 8 := by simp [ws]
  have hlt : bigEndian ws < 2 ^ 64 := by simpa [hlen] using bigEndian_lt ws
  have hpow : 2 ^ (56 - 8 * m) = 256 ^ (ws.length - 1 - m) := by
    rw [hlen, show 56 - 8 * m = 8 * (8 - 1 - m) by omega, Nat.pow_mul]
  refine BitVec.eq_of_toNat_eq ?_
  rw [packWord_eq_bigEndian, BitVec.extractLsb'_toNat, BitVec.toNat_ofNat, Nat.mod_eq_of_lt hlt,
    Nat.shiftRight_eq_div_pow, hpow]
  exact (bigEndian_digit ws m (by omega)).trans (by simp [ws])

theorem byteAt_of_packed {b : List Byte} {buf : Vector Word 8} {k : Nat} (hk : k < b.length)
    (h : wordAt buf (k / 8) = packWord b (k / 8)) : byteAt buf k = b[k] := by
  have hsplit : 8 * (k / 8) + k % 8 = k := Nat.div_add_mod k 8
  rw [byteAt, h, packWord_byte b _ _ (Nat.mod_lt k (by decide)), hsplit, List.getD_eq_getElem b 0 hk]

/-- Settles O34: byte `k` of BYTEBUF is byte `k % 8` of its word, which `packWord_byte` reads back. -/
theorem lbytesWordsHoldTheSequence : Obligations.LbytesWordsHoldTheSequence := by
  intro b buf k hk _ h
  rw [byteAt_of_packed hk h, List.getElem?_eq_getElem hk]

/-! ### LBYTES (spec/30_encoding.md R65) -/

theorem lengthWord_toNat (n : Nat) : (lengthWord n).toNat = min n (2 ^ 64 - 1) :=
  Nat.mod_eq_of_lt (by omega)

/-- The BYTEBUF words that LBYTES writes: those that hold a byte. -/
def lbytesSlots (b : List Byte) : List Nat := (List.range 8).filter fun j => 8 * j < b.length

theorem mem_lbytesSlots {b : List Byte} {j : Nat} : j ∈ lbytesSlots b ↔ j < 8 ∧ 8 * j < b.length := by
  simp [lbytesSlots]

/-- BYTEBUF with the words `js` packed from `b`. -/
def packInto (b : List Byte) (js : List Nat) (buf : Vector Word 8) : Vector Word 8 :=
  js.foldl (fun buf j => setWord buf j (packWord b j)) buf

theorem wordAt_packInto (b : List Byte) (js : List Nat) (buf : Vector Word 8) {j : Nat} (hj : j < 8) :
    wordAt (packInto b js buf) j = if j ∈ js then packWord b j else wordAt buf j := by
  induction js generalizing buf with
  | nil => rfl
  | cons i js ih =>
    rw [packInto, List.foldl_cons, ← packInto, ih, wordAt_setWord]
    by_cases hmem : j ∈ js
    · simp [hmem]
    · by_cases hij : i = j
      · simp [hmem, hij, hj]
      · simp [hmem, hij, Ne.symm hij]

/-- The unit as LDB finds it: BYTEBUF and BYTELEN written, no access left. -/
def lbytesWritten (b : List Byte) (s : State) : State :=
  { s with bytebuf := packInto b (lbytesSlots b) s.bytebuf, bytelen := lengthWord b.length, inputs := [] }

/-- LDB makes of the words written the big-endian value of the sequence. -/
theorem bytesValue_lbytesWritten {b : List Byte} (h : b.length ≤ 64) (s : State) :
    bytesValue (lbytesWritten b s).bytebuf b.length = bigEndian b := by
  rw [bytesValue_eq_bigEndian]
  congr 1
  refine List.ext_getElem (by simp) fun k hk _ => ?_
  have hk : k < b.length := by simpa using hk
  have hslot : k / 8 ∈ lbytesSlots b := mem_lbytesSlots.mpr (by omega)
  rw [List.getElem_map, List.getElem_range]
  exact byteAt_of_packed hk ((wordAt_packInto _ _ _ (by omega)).trans (if_pos hslot))

/-- A BYTEBUF word past the sequence's end is not written. -/
theorem wordAt_lbytesWritten {b : List Byte} {j : Nat} (hj : j < 8) (h : b.length ≤ 8 * j) (s : State) :
    wordAt (lbytesWritten b s).bytebuf j = wordAt s.bytebuf j :=
  (wordAt_packInto _ _ _ hj).trans (if_neg fun hmem => by have := mem_lbytesSlots.mp hmem; omega)

theorem step_hostWrite_bytebuf {s : State} {rest : List Input} {o : BitVec 10} {j : Nat} {v : Word} (h : s.Ready)
    (hrst : s.rst = false) (hi : s.inputs = hostWrite o v :: rest) (hj : j < 8) (ho : o.toNat = 0x040 + 8 * j) :
    step s = .next { s with bytebuf := setWord s.bytebuf j v, inputs := rest } :=
  (step_write hrst hi).trans (busWrite_bytebuf (s := { s with inputs := rest }) h hj ho v)

theorem step_hostWrite_bytelen {s : State} {rest : List Input} {v : Word} (h : s.Ready) (hrst : s.rst = false)
    (hi : s.inputs = hostWrite 0x018 v :: rest) : step s = .next { s with bytelen := v, inputs := rest } :=
  (step_write hrst hi).trans (busWrite_bytelen (s := { s with inputs := rest }) h v)

/-- The run through the BYTEBUF writes of LBYTES. -/
theorem run_bytebufWrites (b : List Byte) {js : List Nat} {s : State} {rest : List Input} (h : s.Ready)
    (hrst : s.rst = false) (hjs : ∀ j ∈ js, j < 8)
    (hi : s.inputs = js.map (fun j => hostWrite (BitVec.ofNat 10 (0x040 + 8 * j)) (packWord b j)) ++ rest) (k : Nat) :
    core.run (k + js.length) s = core.run k ({ s with bytebuf := packInto b js s.bytebuf, inputs := rest } : State) := by
  induction js generalizing s with
  | nil =>
    obtain rfl : rest = s.inputs := hi.symm
    rfl
  | cons j js ih =>
    have hj : j < 8 := hjs j (by simp)
    have hoff : (BitVec.ofNat 10 (0x040 + 8 * j)).toNat = 0x040 + 8 * j := Nat.mod_eq_of_lt (by omega)
    have hstep := step_hostWrite_bytebuf h hrst hi hj hoff
    exact (run_succ (M := core) (k + js.length) hstep).trans (ih h hrst (fun i hi => hjs i (by simp [hi])) rfl)

/-- The run through all accesses of LBYTES, the last of which offers LDB. -/
theorem run_macroLbytes {vd : Reg} {b : List Byte} {s t : State} (h : s.Ready) (hrst : s.rst = false)
    (hi : s.inputs = macroLbytes vd b) (ht : exec (.ldb vd) (lbytesWritten b s) = .next t) (k : Nat) :
    core.run (k + 2 + (lbytesSlots b).length) s = core.run k t := by
  let packed : State := { s with
    bytebuf := packInto b (lbytesSlots b) s.bytebuf
    inputs := [hostWrite 0x018 (lengthWord b.length), cmdWrite (cmdValue (.ldb vd))] }
  let lengthened : State := { packed with bytelen := lengthWord b.length, inputs := [cmdWrite (cmdValue (.ldb vd))] }
  have hlen : step packed = .next lengthened := step_hostWrite_bytelen h hrst rfl
  have hcmd : step lengthened = exec (.ldb vd) (lbytesWritten b s) :=
    (stepRunsTheOfferedCommand lengthened [] hrst).2.2 _ _ rfl h (decode_cmdValue (.ldb vd))
  calc core.run (k + 2 + (lbytesSlots b).length) s = core.run (k + 2) packed :=
        run_bytebufWrites b h hrst (fun j hj => (mem_lbytesSlots.mp hj).1) hi _
    _ = core.run (k + 1) lengthened := run_succ (M := core) (k + 1) hlen
    _ = core.run k t := run_succ (M := core) k (hcmd.trans ht)

/-! ### LDB, from its offer to its end (spec/48_wrapper.md R95) -/

/-- A command whose word fails its check takes that check's fault as it is offered. -/
theorem faults_of_wordCheck {i : Instr} {s : State} {k : Cause} (h : s.Ready) (hw : wordCheck s i = some k) :
    Faults k i s :=
  ⟨takeCommandFault k (cmdValue i) i s, by rw [exec_of_ready i h, hw]; rfl,
    faultEntry_takeFault k _ _ _ _ (destsOf_le i)⟩

/-- For more than 64 bytes LDB takes BYTES_OVERSIZE. -/
theorem faults_ldb (vd : Reg) {s : State} (h : s.Ready) (hlong : 64 < s.bytelen.toNat) :
    Faults .bytesOversize (.ldb vd) s :=
  faults_of_wordCheck h (if_pos hlong)

/-- For at most 64 bytes LDB is accepted and, with no input left, its next step is its completion. -/
theorem runs_ldb (vd : Reg) {s : State} (h : s.Ready) (hi : s.inputs = []) (hshort : s.bytelen.toNat ≤ 64) :
    ∃ t u, exec (.ldb vd) s = .next t ∧ step t = .next u ∧ u.busy = false ∧
      u.value vd 8 = some (bytesValue s.bytebuf s.bytelen.toNat) ∧ Frame [(vd, 8)] .noFlag s u ∧ SameRandom s u := by
  have hcheck : wordCheck s (.ldb vd) = none := if_neg (by omega)
  have haccept : exec (.ldb vd) s = .next (accepted (.ldb vd) s) := by
    rw [exec_of_ready _ h, hcheck, issue_accepts rfl, accepted]
  have hbits : 8 * s.bytelen.toNat ≤ 64 * 8 := by omega
  have hlt : bytesValue s.bytebuf s.bytelen.toNat < 2 ^ (64 * 8) :=
    (bytesValue_lt ..).trans_le (Nat.pow_le_pow_right Nat.two_pos hbits)
  refine ⟨_, _, haccept,
    step_inFlight ((frame_accepted _).inputs.trans hi) (accepted_ready _ h).1 (accepted_ready _ h).2, rfl, ?_,
    (frame_accepted _).trans (frame_complete_writeWords vd _ _ _ (Nat.le_refl 8)), sameRandom_accepted _ s⟩
  exact (value_wrL vd 8 _ _ (Nat.le_refl 8)).trans (congrArg some (Nat.mod_eq_of_lt hlt))

/-- Settles O52: `run_macroLbytes` runs the accesses up to the offer of LDB, and `runs_ldb` or `faults_ldb` ends the run. -/
theorem lbytesImportsTheSequence : Obligations.LbytesImportsTheSequence := by
  intro vd b s h hrst hi
  let w := lbytesWritten b s
  have hw : w.Ready := h
  have hlen : w.bytelen.toNat = min b.length (2 ^ 64 - 1) := lengthWord_toNat _
  have hbuf (j : Nat) (hj : j < 8) (hb : b.length ≤ 8 * j) : wordAt w.bytebuf j = wordAt s.bytebuf j :=
    wordAt_lbytesWritten hj hb s
  by_cases hb : b.length ≤ 64
  · have hlen : w.bytelen.toNat = b.length := by omega
    obtain ⟨t, u, ht, hu, hidle, hvalue, hframe, hrandom⟩ := runs_ldb vd hw rfl (by omega)
    have hrun : core.run (1 + 2 + (lbytesSlots b).length) s = .next u :=
      (run_macroLbytes h hrst hi ht 1).trans (run_succ (M := core) 0 hu)
    have hnumber : bytesValue w.bytebuf w.bytelen.toNat = bigEndian b := hlen ▸ bytesValue_lbytesWritten hb s
    refine ⟨_, u, hrun, hframe.inputs, hidle, fun _ => ?_, fun hgt => absurd hb (by omega), fun r i hr => ?_,
      hframe.c (by simp), hframe.cmpr (by simp), hframe.data, by rwa [hframe.bytebuf], hrandom⟩
    · exact ⟨hframe.fault.trans hw.1, by rw [hframe.bytelen, hlen], by rw [hvalue, hnumber, bigEndian]⟩
    · exact hframe.limb r i (by simp [Ne.symm hr])
  · obtain ⟨t, ht, hfault⟩ := faults_ldb vd hw (by omega)
    refine ⟨_, t, run_macroLbytes h hrst hi ht 0, hfault.ports.2.2, by simp [State.busy, hfault.idle.1],
      fun hle => absurd hle hb, fun _ => ?_, fun r i hr => ?_, hfault.c (by simp [flagOf]),
      hfault.cmpr (by simp [flagOf]), hfault.data, by rwa [hfault.bytebuf], hfault.random⟩
    · exact ⟨hfault.fault, hfault.fcause, hfault.fcmd, hfault.undef _ (List.mem_singleton_self _)⟩
    · exact hfault.limb r i (by simp [destsOf, Ne.symm hr])

end Sys2Proof.Machine

/-! # Proofs about the additive core (spec/41_additive.md): ADD and SUB -/

namespace Sys2Proof.Machine

/-- A command that writes the number `x` to the low limbs of one register, and STATUS.C. -/
theorem completes_valueAndCarry (i : Instr) {s : State} {rd : Reg} {n x : Nat} {cv : Bool}
    (h : s.Ready) (hw : wordCheck s i = none) (hv : valueCheck i (latchOf i s) = none) (hn : n ≤ 8)
    (hu : exec i (accepted i s) = .next (complete { wrL rd n x (accepted i s) with c := cv })) :
    ∃ u, Completes i s u ∧ u.value rd n = some (x % 2 ^ (64 * n)) ∧ u.c = cv ∧ Frame [(rd, n)] .carry s u ∧
      SameRandom s u := by
  have hcmpr : (accepted i s).cmpr = s.cmpr := (frame_accepted i).cmpr (by simp)
  obtain ⟨u, hdone, hlimbs, hc, -, hframe, hrandom⟩ :=
    completes_one i .carry (limbOf x) cv (accepted i s).cmpr h hw hv hn hu (fun hf => absurd rfl hf) (fun _ => hcmpr)
  exact ⟨u, hdone, value_of_limbs hlimbs, hc, hframe, hrandom⟩

/-! ### ADD (spec/41_additive.md R68) -/

/-- The step that completes an accepted ADD, on the operands as they were read at its issue. -/
theorem exec_add_accepted (rd rs1 rs2 : Reg) (la lb : Len) {s : State} (h : s.Ready) :
    let i := Instr.add rd rs1 rs2 la lb
    let sum := operandA s rs1 la + operandB s rs2 lb
    exec i (accepted i s) = .next (complete { wrL rd (limbs la) (sum % 2 ^ (64 * limbs la)) (accepted i s) with
      c := decide (2 ^ (64 * limbs la) ≤ sum) }) := by
  intro i sum
  have ha : (latchOf i s).a.toNat = operandA s rs1 la := latchOf_a rfl
  have hb : (latchOf i s).b.toNat = operandB s rs2 lb := latchOf_b rfl
  rw [exec_accepted i h, progressOf, ha, hb, carryOut]

/-- Settles O35: lengths decide between `faults_of_wordCheck` and the completion, which writes the sum and its carry. -/
theorem addGivesSumAndCarry : Obligations.AddGivesSumAndCarry := by
  intro rd rs1 rs2 la lb s h A B L
  refine ⟨rfl, rfl, encodingFaults .add s, fun hshort => faults_of_wordCheck h (if_pos hshort), fun hlen => ?_⟩
  obtain ⟨u, hdone, hvalue, hc, hframe⟩ :=
    completes_valueAndCarry (.add rd rs1 rs2 la lb) h (if_neg (Nat.not_lt.mpr hlen)) rfl (limbs_le la)
      (exec_add_accepted rd rs1 rs2 la lb h)
  exact ⟨u, hdone, by rw [hvalue, Nat.mod_mod], by rw [hc, decide_eq_true_iff], hframe⟩

/-! ### SUB (spec/41_additive.md R69) -/

/-- A difference of two numbers below `m`, taken modulo `m`: it wraps once exactly where it would be negative. -/
theorem toNat_sub_emod {a b m : Nat} (ha : a < m) (hb : b < m) :
    (((a : Int) - b) % m).toNat = if b ≤ a then a - b else a + m - b := by
  split
  · rw [Int.emod_eq_of_lt (by omega) (by omega)]
    omega
  · rw [← Int.add_emod_right, Int.emod_eq_of_lt (by omega) (by omega)]
    omega

/-- The step that completes an accepted SUB, on the operands as they were read at its issue. -/
theorem exec_sub_accepted (rd rs1 rs2 : Reg) (la lb : Len) {s : State} (h : s.Ready) :
    let i := Instr.sub rd rs1 rs2 la lb
    let A := operandA s rs1 la
    let B := operandB s rs2 lb
    exec i (accepted i s) = .next (complete
      { wrL rd (limbs la) (((A : Int) - B) % (2 ^ (64 * limbs la) : Nat)).toNat (accepted i s) with
        c := decide (A < B) }) := by
  intro i A B
  have ha : (latchOf i s).a.toNat = A := latchOf_a rfl
  have hb : (latchOf i s).b.toNat = B := latchOf_b rfl
  rw [exec_accepted i h, progressOf, ha, hb, borrowOut, Nat.cast_pow, Nat.cast_ofNat]

/-- Settles O36: lengths decide between `faults_of_wordCheck` and the completion, whose difference is `toNat_sub_emod`. -/
theorem subGivesDifferenceAndBorrow : Obligations.SubGivesDifferenceAndBorrow := by
  intro rd rs1 rs2 la lb s h A B L
  refine ⟨rfl, rfl, encodingFaults .sub s, fun hne => faults_of_wordCheck h (if_neg hne), fun hlen => ?_⟩
  have hA : A < 2 ^ (64 * L) := operandA_lt s rs1 la
  have hB : B < 2 ^ (64 * L) := hlen ▸ operandB_lt s rs2 lb
  obtain ⟨u, hdone, hvalue, hc, hframe⟩ :=
    completes_valueAndCarry (.sub rd rs1 rs2 la lb) h (if_pos hlen) rfl (limbs_le la)
      (exec_sub_accepted rd rs1 rs2 la lb h)
  have hlt : (if B ≤ A then A - B else A + 2 ^ (64 * L) - B) < 2 ^ (64 * L) := by split <;> omega
  exact ⟨u, hdone, by rw [hvalue, toNat_sub_emod hA hB, Nat.mod_eq_of_lt hlt], by rw [hc, decide_eq_true_iff], hframe⟩

end Sys2Proof.Machine

/-! # Proofs about the comparator (spec/42_compare.md): CMP -/

namespace Sys2Proof.Machine

/-! ### The scan of the limbs (spec/42_compare.md R70) -/

theorem compareLimbs_of_eq {a b n : Nat} (h : ∀ i < n, limbOf a i = limbOf b i) : compareLimbs a b n = .equal := by
  induction n with
  | zero => rfl
  | succ n ih =>
    rw [compareLimbs, if_pos (h n (by omega))]
    exact ih fun i hi => h i (by omega)

/-- The highest unequal pair of limbs decides the scan. -/
theorem compareLimbs_of_highest_ne {a b n i : Nat} (hi : i < n) (hne : limbOf a i ≠ limbOf b i)
    (habove : ∀ j, i < j → j < n → limbOf a j = limbOf b j) :
    compareLimbs a b n = if limbOf a i < limbOf b i then .less else .greater := by
  induction n with
  | zero => omega
  | succ n ih =>
    obtain rfl | hlt : i = n ∨ i < n := by omega
    · rw [compareLimbs, if_neg hne]
    · rw [compareLimbs, if_pos (habove n hlt (by omega))]
      exact ih hlt fun j hij hj => habove j hij (by omega)

/-- Of two numbers in base `m` the one with the lower top digit is the lower, whatever the digits below. -/
theorem add_mul_lt_of_digit_lt {a b x y m : Nat} (ha : a < m) (h : x < y) : a + x * m < b + y * m := by
  have hmul : (x + 1) * m ≤ y * m := Nat.mul_le_mul_right m h
  rw [Nat.succ_mul] at hmul
  omega

/-- The scan of `n` limbs gives the order of the two numbers modulo 2^(64n). -/
theorem compareLimbs_eq_order (a b n : Nat) :
    compareLimbs a b n =
      if a % 2 ^ (64 * n) < b % 2 ^ (64 * n) then .less
      else if a % 2 ^ (64 * n) = b % 2 ^ (64 * n) then .equal else .greater := by
  induction n with
  | zero => simp [compareLimbs, Nat.mod_one]
  | succ n ih =>
    have ha : a % 2 ^ (64 * n) < 2 ^ (64 * n) := Nat.mod_lt _ (Nat.two_pow_pos _)
    have hb : b % 2 ^ (64 * n) < 2 ^ (64 * n) := Nat.mod_lt _ (Nat.two_pow_pos _)
    rw [compareLimbs, mod_limb_succ a, mod_limb_succ b]
    rcases Nat.lt_trichotomy (limbOf a n).toNat (limbOf b n).toNat with hlt | heq | hgt
    · rw [if_neg (ne_of_apply_ne BitVec.toNat hlt.ne), if_pos (BitVec.lt_def.mpr hlt), if_pos (add_mul_lt_of_digit_lt ha hlt)]
    · rw [if_pos (BitVec.eq_of_toNat_eq heq), ih, heq]
      simp only [Nat.add_lt_add_iff_right, Nat.add_right_cancel_iff]
    · have hsum := add_mul_lt_of_digit_lt (b := a % 2 ^ (64 * n)) hb hgt
      rw [if_neg (ne_of_apply_ne BitVec.toNat hgt.ne'), if_neg (BitVec.lt_asymm hgt), if_neg (by omega), if_neg (by omega)]

/-! ### CMP (spec/42_compare.md R71) -/

/-- The step that completes an accepted CMP, on the operands as they were read at its issue. -/
theorem exec_cmp_accepted (rs1 rs2 : Reg) (la lb : Len) {s : State} (h : s.Ready) :
    let i := Instr.cmp rs1 rs2 la lb
    exec i (accepted i s) = .next (complete { accepted i s with
      cmpr := compareLimbs (operandA s rs1 la) (operandB s rs2 lb) (limbs la) }) := by
  intro i
  have ha : (latchOf i s).a.toNat = operandA s rs1 la := latchOf_a rfl
  have hb : (latchOf i s).b.toNat = operandB s rs2 lb := latchOf_b rfl
  rw [exec_accepted i h, progressOf, ha, hb]

theorem frame_complete_withCmpr (s : State) (m : CmpResult) :
    Frame [] .comparison s (complete { s with cmpr := m }) := by
  constructor <;> simp

/-- On equal lengths CMP completes with the scan's result in CMPR, and changes nothing else. -/
theorem completes_cmp (rs1 rs2 : Reg) {la lb : Len} {s : State} (h : s.Ready) (hlen : limbs la = limbs lb) :
    ∃ u, Completes (.cmp rs1 rs2 la lb) s u ∧
      u.cmpr = compareLimbs (operandA s rs1 la) (operandB s rs2 lb) (limbs la) ∧ Frame [] .comparison s u ∧
      SameRandom s u :=
  ⟨_, completes_of h (if_pos hlen) rfl (exec_cmp_accepted rs1 rs2 la lb h) rfl, rfl,
    (frame_accepted _).trans (frame_complete_withCmpr _ _), sameRandom_accepted _ s⟩

/-- Settles O37: lengths decide between `faults_of_wordCheck` and `completes_cmp`, whose scan of the operands' limbs is
their order by `compareLimbs_eq_order`. -/
theorem cmpGivesTheNumericOrder : Obligations.CmpGivesTheNumericOrder := by
  intro rs1 rs2 la lb s h A B x y
  refine ⟨rfl, rfl, encodingFaults .cmp s, fun hne => faults_of_wordCheck h (if_neg hne), fun hlen => ?_⟩
  obtain ⟨u, hdone, hcmpr, hframe⟩ := completes_cmp rs1 rs2 h hlen
  have hx (i : Nat) (hi : i < limbs la) : limbOf A i = x i := limbOf_rdL s.v[rs1] s.draws _ i hi
  have hy (i : Nat) (hi : i < limbs la) : limbOf B i = y i := limbOf_rdL s.v[rs2] (s.draws + 8) _ i (hlen ▸ hi)
  refine ⟨u, hdone, fun i hi hne habove => ?_, fun heq => ?_, ?_, hframe⟩
  · rw [hcmpr, ← hx i hi, ← hy i hi]
    refine compareLimbs_of_highest_ne hi (by rwa [hx i hi, hy i hi]) fun j hij hj => ?_
    rw [hx j hj, hy j hj, habove j hij hj]
  · exact hcmpr.trans (compareLimbs_of_eq fun i hi => by rw [hx i hi, hy i hi, heq i hi])
  · have hA : A < 2 ^ (64 * limbs la) := operandA_lt s rs1 la
    have hB : B < 2 ^ (64 * limbs la) := hlen ▸ operandB_lt s rs2 lb
    rw [hcmpr, compareLimbs_eq_order, Nat.mod_eq_of_lt hA, Nat.mod_eq_of_lt hB]

end Sys2Proof.Machine

/-! # Proofs about the bit-shift engine (spec/43_shift.md): SHL and SHR -/

namespace Sys2Proof.Machine

/-! ### Limbs of shifted numbers, bit by bit (spec/43_shift.md R73, R74) -/

theorem getLsbD_limbOf (x i k : Nat) : (limbOf x i).getLsbD k = (decide (k < 64) && x.testBit (64 * i + k)) := by
  rw [limbOf, BitVec.getLsbD_ofNat, Nat.testBit_div_two_pow, Nat.add_comm]

theorem limbOf_mod {x n i : Nat} (hi : i < n) : limbOf (x % 2 ^ (64 * n)) i = limbOf x i := by
  refine BitVec.eq_of_getLsbD_eq fun k hk => ?_
  simp [getLsbD_limbOf, show 64 * i + k < 64 * n by omega]

theorem limbOf_eq_zero {x n i : Nat} (hx : x < 2 ^ (64 * n)) (hi : n ≤ i) : limbOf x i = 0 := by
  have hle : 2 ^ (64 * n) ≤ 2 ^ (64 * i) := Nat.pow_le_pow_right Nat.two_pos (by omega)
  rw [limbOf, Nat.div_eq_of_lt (hx.trans_le hle)]
  rfl

/-- The limbs below the whole-limb part of a left shift. -/
theorem limbOf_mul_two_pow_of_lt (x : Nat) {s i : Nat} (hi : i < s / 64) : limbOf (x * 2 ^ s) i = 0 := by
  refine BitVec.eq_of_getLsbD_eq fun k hk => ?_
  simp [getLsbD_limbOf, Nat.testBit_mul_two_pow, show ¬ s ≤ 64 * i + k by omega]

/-- The lowest limb that a left shift moves: no limb below it sends bits in. -/
theorem limbOf_mul_two_pow_self (x s : Nat) : limbOf (x * 2 ^ s) (s / 64) = limbOf x 0 <<< (s % 64) := by
  refine BitVec.eq_of_getLsbD_eq fun k hk => ?_
  rw [BitVec.getLsbD_shiftLeft, getLsbD_limbOf, getLsbD_limbOf, Nat.testBit_mul_two_pow]
  by_cases hr : k < s % 64
  · simp [hr, show ¬ s ≤ 64 * (s / 64) + k by omega]
  · simp [hr, hk, show s ≤ 64 * (s / 64) + k by omega, show k - s % 64 < 64 by omega,
      show 64 * (s / 64) + k - s = k - s % 64 by omega]

/-- A limb above it: the bits of two source limbs meet at bit `s % 64`. Where that is 0, the lower one sends none. -/
theorem limbOf_mul_two_pow_above (x : Nat) {s i : Nat} (hi : s / 64 < i) :
    limbOf (x * 2 ^ s) i = (limbOf x (i - s / 64) <<< (s % 64)) ||| (limbOf x (i - s / 64 - 1) >>> (64 - s % 64)) := by
  refine BitVec.eq_of_getLsbD_eq fun k hk => ?_
  have hle : s ≤ 64 * i + k := by omega
  rw [BitVec.getLsbD_or, BitVec.getLsbD_shiftLeft, BitVec.getLsbD_ushiftRight, getLsbD_limbOf, getLsbD_limbOf,
    getLsbD_limbOf, Nat.testBit_mul_two_pow]
  by_cases hr : k < s % 64
  · simp [hr, hk, hle, show 64 - s % 64 + k < 64 by omega,
      show 64 * i + k - s = 64 * (i - s / 64 - 1) + (64 - s % 64 + k) by omega]
  · simp [hr, hk, hle, show k - s % 64 < 64 by omega, show ¬ 64 - s % 64 + k < 64 by omega,
      show 64 * i + k - s = 64 * (i - s / 64) + (k - s % 64) by omega]

/-- A limb of a right shift: the bits of two source limbs meet at bit `64 - s % 64`. Where that is 64, the upper one
sends none. -/
theorem limbOf_div_two_pow (x s i : Nat) :
    limbOf (x / 2 ^ s) i = (limbOf x (i + s / 64) >>> (s % 64)) ||| (limbOf x (i + s / 64 + 1) <<< (64 - s % 64)) := by
  refine BitVec.eq_of_getLsbD_eq fun k hk => ?_
  rw [BitVec.getLsbD_or, BitVec.getLsbD_ushiftRight, BitVec.getLsbD_shiftLeft, getLsbD_limbOf, getLsbD_limbOf,
    getLsbD_limbOf, Nat.testBit_div_two_pow]
  by_cases hr : k < 64 - s % 64
  · simp [hr, hk, show s % 64 + k < 64 by omega, show 64 * i + k + s = 64 * (i + s / 64) + (s % 64 + k) by omega]
  · simp [hr, hk, show ¬ s % 64 + k < 64 by omega, show k - (64 - s % 64) < 64 by omega,
      show 64 * i + k + s = 64 * (i + s / 64 + 1) + (k - (64 - s % 64)) by omega]

/-- R73's word form. -/
theorem limbOf_mul_two_pow (x s i : Nat) :
    limbOf (x * 2 ^ s) i =
      if i < s / 64 then 0
      else if i = s / 64 then limbOf x 0 <<< (s % 64)
      else if s % 64 = 0 then limbOf x (i - s / 64)
      else (limbOf x (i - s / 64) <<< (s % 64)) ||| (limbOf x (i - s / 64 - 1) >>> (64 - s % 64)) := by
  rcases Nat.lt_trichotomy i (s / 64) with hbelow | rfl | habove
  · rw [limbOf_mul_two_pow_of_lt x hbelow, if_pos hbelow]
  · rw [limbOf_mul_two_pow_self, if_neg (Nat.lt_irrefl _), if_pos rfl]
  · rw [limbOf_mul_two_pow_above x habove, if_neg habove.not_gt, if_neg habove.ne']
    by_cases hr : s % 64 = 0
    · simp [hr, BitVec.ushiftRight_eq_zero]
    · rw [if_neg hr]

/-- R74's word form, for a number of `n` limbs. -/
theorem limbOf_div_two_pow_of_lt {x n : Nat} (s i : Nat) (hx : x < 2 ^ (64 * n)) :
    limbOf (x / 2 ^ s) i =
      if n ≤ i + s / 64 then 0
      else if i + s / 64 + 1 = n then limbOf x (i + s / 64) >>> (s % 64)
      else if s % 64 = 0 then limbOf x (i + s / 64)
      else (limbOf x (i + s / 64) >>> (s % 64)) ||| (limbOf x (i + s / 64 + 1) <<< (64 - s % 64)) := by
  rw [limbOf_div_two_pow]
  obtain hout | htop | hin : n ≤ i + s / 64 ∨ i + s / 64 + 1 = n ∨ i + s / 64 + 1 < n := by omega
  · simp [hout, limbOf_eq_zero hx hout, limbOf_eq_zero hx (Nat.le_succ_of_le hout)]
  · rw [limbOf_eq_zero hx htop.ge, if_neg (by omega), if_pos htop]
    simp
  · rw [if_neg (by omega), if_neg hin.ne]
    by_cases hr : s % 64 = 0
    · simp [hr]
    · rw [if_neg hr]

/-! ### SHL (spec/43_shift.md R73) -/

/-- In range SHL completes with A 2^s, cut to L limbs, and changes nothing else. -/
theorem completes_shl (rd rs1 : Reg) {shamt : BitVec 11} {la : Len} {s : State} (h : s.Ready)
    (hlt : shamt.toNat < 64 * limbs la) :
    ∃ u, Completes (.shl rd rs1 shamt la) s u ∧
      (∀ i < limbs la, u.limb rd i = .word (limbOf (operandA s rs1 la * 2 ^ shamt.toNat % 2 ^ (64 * limbs la)) i)) ∧
      Frame [(rd, limbs la)] .noFlag s u ∧ SameRandom s u := by
  let i := Instr.shl rd rs1 shamt la
  have ha : (latchOf i s).a.toNat = operandA s rs1 la := latchOf_a rfl
  refine completes_words i h (if_pos hlt) rfl (limbs_le la) ?_
  rw [exec_accepted i h, progressOf, ha, wrL]

/-- Settles O38: the count decides between `faults_of_wordCheck` and `completes_shl`, whose limbs are
`limbOf_mul_two_pow` on the limbs of A that were read. -/
theorem shlMultipliesByAPowerOfTwo : Obligations.ShlMultipliesByAPowerOfTwo := by
  intro rd rs1 shamt la s h A L x d r
  refine ⟨rfl, rfl, encodingFaults .shl s, fun hge => faults_of_wordCheck h (if_neg hge.not_gt), fun hlt => ?_⟩
  obtain ⟨u, hdone, hlimb, hframe⟩ := completes_shl rd rs1 h hlt
  have hx (j : Nat) (hj : j < L) : limbOf A j = x j := limbOf_rdL s.v[rs1] s.draws L j hj
  refine ⟨u, hdone, by rw [value_of_limbs hlimb, Nat.mod_mod], fun i hi => ?_, hframe⟩
  rw [hlimb i hi, limbOf_mod hi, limbOf_mul_two_pow, hx 0 (by omega), hx (i - d) (by omega), hx (i - d - 1) (by omega)]

/-! ### SHR (spec/43_shift.md R74) -/

/-- In range SHR completes with A / 2^s, and changes nothing else. -/
theorem completes_shr (rd rs1 : Reg) {shamt : BitVec 11} {la : Len} {s : State} (h : s.Ready)
    (hlt : shamt.toNat < 64 * limbs la) :
    ∃ u, Completes (.shr rd rs1 shamt la) s u ∧
      (∀ i < limbs la, u.limb rd i = .word (limbOf (operandA s rs1 la / 2 ^ shamt.toNat) i)) ∧
      Frame [(rd, limbs la)] .noFlag s u ∧ SameRandom s u := by
  let i := Instr.shr rd rs1 shamt la
  have ha : (latchOf i s).a.toNat = operandA s rs1 la := latchOf_a rfl
  refine completes_words i h (if_pos hlt) rfl (limbs_le la) ?_
  rw [exec_accepted i h, progressOf, ha, wrL]

/-- The number that SHR leaves: a quotient of A is not cut. -/
theorem value_of_shr {s u : State} {rd rs1 : Reg} {la : Len} {n : Nat}
    (hlimb : ∀ i < limbs la, u.limb rd i = .word (limbOf (operandA s rs1 la / 2 ^ n) i)) :
    u.value rd (limbs la) = some (operandA s rs1 la / 2 ^ n) := by
  rw [value_of_limbs hlimb, Nat.mod_eq_of_lt ((Nat.div_le_self ..).trans_lt (operandA_lt s rs1 la))]

/-- A unit in which a command has completed is ready for the next. -/
theorem Completes.ready {i : Instr} {s u : State} {ds : List (Reg × Nat)} {f : FlagName} (hdone : Completes i s u)
    (hframe : Frame ds f s u) (h : s.Ready) : u.Ready := by
  obtain ⟨_, _, _, _, _, _, hidle⟩ := hdone
  exact ⟨hframe.fault.trans h.1, by simpa [State.busy] using hidle⟩

/-- A right shift undoes a left shift that lost no set bit. -/
theorem completes_shl_shr (rd rq rs1 : Reg) {shamt : BitVec 11} {la : Len} {s : State} {A : Nat} (h : s.Ready)
    (hlt : shamt.toNat < 64 * limbs la) (hA : s.value rs1 (limbs la) = some A)
    (hfit : A * 2 ^ shamt.toNat < 2 ^ (64 * limbs la)) :
    ∃ u v, Completes (.shl rd rs1 shamt la) s u ∧ Completes (.shr rq rd shamt la) u v ∧
      v.value rq (limbs la) = some A := by
  have hread : operandA s rs1 la = A := rdL_eq_of_definedValue hA s.draws
  obtain ⟨u, hdone, hlimb, hframe, -⟩ := completes_shl rd rs1 h hlt
  obtain ⟨v, hdone', hlimb', -⟩ := completes_shr rq rd (hdone.ready hframe h) hlt
  have hu : u.value rd (limbs la) = some (A * 2 ^ shamt.toNat) := by
    rw [value_of_limbs hlimb, Nat.mod_mod, hread, Nat.mod_eq_of_lt hfit]
  have hread' : operandA u rd la = A * 2 ^ shamt.toNat := rdL_eq_of_definedValue hu u.draws
  exact ⟨u, v, hdone, hdone', by rw [value_of_shr hlimb', hread', Nat.mul_div_cancel _ (Nat.two_pow_pos _)]⟩

/-- Settles O39: the count decides between `faults_of_wordCheck` and `completes_shr`, whose limbs are
`limbOf_div_two_pow_of_lt` on the limbs of A that were read; the round trip is `completes_shl_shr`. -/
theorem shrDividesByAPowerOfTwo : Obligations.ShrDividesByAPowerOfTwo := by
  refine ⟨fun rd rs1 shamt la s h => ?_, fun rd rq rs1 shamt la s A => completes_shl_shr rd rq rs1⟩
  intro A L x d r
  refine ⟨rfl, rfl, encodingFaults .shr s, fun hge => faults_of_wordCheck h (if_neg hge.not_gt), fun hlt => ?_⟩
  obtain ⟨u, hdone, hlimb, hframe⟩ := completes_shr rd rs1 h hlt
  have hx (j : Nat) (hj : j < L) : limbOf A j = x j := limbOf_rdL s.v[rs1] s.draws L j hj
  refine ⟨u, hdone, value_of_shr hlimb, fun i hi => ?_, hframe⟩
  rw [hlimb i hi, limbOf_div_two_pow_of_lt _ _ (operandA_lt s rs1 la)]
  obtain hout | htop | hin : L ≤ i + d ∨ i + d + 1 = L ∨ i + d + 1 < L := by omega
  · rw [if_pos hout, if_pos hout]
  · have hle : ¬ L ≤ i + d := by omega
    rw [if_neg hle, if_neg hle, if_pos htop, if_pos htop, hx (i + d) (by omega)]
  · rw [hx (i + d) (by omega), hx (i + d + 1) hin]

end Sys2Proof.Machine

/-! # Proofs about the bitwise engine (spec/44_bitwise.md): AND, OR, XOR and NOT -/

namespace Sys2Proof.Machine

theorem limbOf_operandA (s : State) (rs1 : Reg) (la : Len) {j : Nat} (hj : j < limbs la) :
    limbOf (operandA s rs1 la) j = readLimb (s.limb rs1 j) (s.draws + j) :=
  limbOf_rdL s.v[rs1] s.draws _ j hj

theorem limbOf_operandB (s : State) (rs2 : Reg) (lb : Len) {j : Nat} (hj : j < limbs lb) :
    limbOf (operandB s rs2 lb) j = readLimb (s.limb rs2 j) (s.draws + 8 + j) :=
  limbOf_rdL s.v[rs2] (s.draws + 8) _ j hj

/-! ### AND, OR and XOR (spec/44_bitwise.md R76, R77, R78) -/

/-- What the model's functions say of a two-operand command `op` that checks for equal lengths alone and works limb by
limb with `f` (spec/44_bitwise.md R75). -/
structure IsLanewise (o : Opcode) (op : Reg → Reg → Reg → Len → Len → Instr) (f : Word → Word → Word) : Prop where
  encode_eq : ∀ {rd rs1 rs2 la lb}, encode (op rd rs1 rs2 la lb) = formatR o rd rs1 rs2 0 la lb
  sourceA_eq : ∀ {rd rs1 rs2 la lb}, sourceA (op rd rs1 rs2 la lb) = some (rs1, limbs la)
  sourceB_eq : ∀ {rd rs1 rs2 la lb}, sourceB (op rd rs1 rs2 la lb) = some (rs2, limbs lb)
  wordCheck_eq : ∀ {rd rs1 rs2 la lb s}, wordCheck s (op rd rs1 rs2 la lb) = checkEqualLengths la lb
  valueCheck_eq : ∀ {rd rs1 rs2 la lb p}, valueCheck (op rd rs1 rs2 la lb) p = none
  progressOf_eq : ∀ {rd rs1 rs2 la lb p s}, progressOf (op rd rs1 rs2 la lb) p s = lanewise f rd (limbs la) p s

theorem isLanewise_bitAnd : IsLanewise .bitAnd .bitAnd (fun x y => x &&& y) := ⟨rfl, rfl, rfl, rfl, rfl, rfl⟩

theorem isLanewise_bitOr : IsLanewise .bitOr .bitOr (fun x y => x ||| y) := ⟨rfl, rfl, rfl, rfl, rfl, rfl⟩

theorem isLanewise_bitXor : IsLanewise .bitXor .bitXor (fun x y => x ^^^ y) := ⟨rfl, rfl, rfl, rfl, rfl, rfl⟩

/-- The step that completes an accepted lanewise command, on the operands as they were read at its issue. -/
theorem IsLanewise.exec_accepted {o : Opcode} {op : Reg → Reg → Reg → Len → Len → Instr} {f : Word → Word → Word}
    (hop : IsLanewise o op f) (rd rs1 rs2 : Reg) (la lb : Len) {s : State} (h : s.Ready) :
    let i := op rd rs1 rs2 la lb
    exec i (accepted i s) = .next (complete (writeWords rd (limbs la)
      (fun j => f (limbOf (operandA s rs1 la) j) (limbOf (operandB s rs2 lb) j)) (accepted i s))) := by
  intro i
  rw [Machine.exec_accepted i h, hop.progressOf_eq, lanewise, latchOf_a hop.sourceA_eq, latchOf_b hop.sourceB_eq]

/-- The lengths decide between `faults_of_wordCheck` and the completion, whose limbs are `f` of the limbs that were
read. -/
theorem IsLanewise.laneResult {o : Opcode} {op : Reg → Reg → Reg → Len → Len → Instr} {f : Word → Word → Word}
    (hop : IsLanewise o op f) : LaneResult o op f := by
  intro rd rs1 rs2 la lb s h
  refine ⟨hop.encode_eq, encodingFaults o s,
    fun hne => faults_of_wordCheck h (hop.wordCheck_eq.trans (if_neg hne)), fun hlen => ?_⟩
  obtain ⟨u, hdone, hlimb, hframe⟩ := completes_words (op rd rs1 rs2 la lb) h (hop.wordCheck_eq.trans (if_pos hlen))
    hop.valueCheck_eq (limbs_le la) (hop.exec_accepted rd rs1 rs2 la lb h)
  refine ⟨u, hdone, fun j hj => ?_, hframe⟩
  rw [hlimb j hj, limbOf_operandA s rs1 la hj, limbOf_operandB s rs2 lb (hlen ▸ hj)]

/-- Settles O40: each of the three is lanewise, so each is `IsLanewise.laneResult`. -/
theorem andOrXorWorkLimbByLimb : Obligations.AndOrXorWorkLimbByLimb :=
  ⟨rfl, rfl, rfl, isLanewise_bitAnd.laneResult, isLanewise_bitOr.laneResult, isLanewise_bitXor.laneResult⟩

/-! ### NOT (spec/44_bitwise.md R79) -/

/-- R79's two forms agree: for x below 2^(64n) the subtraction borrows in no limb, so it complements each. -/
theorem limbOf_two_pow_sub_one_sub {x n j : Nat} (hx : x < 2 ^ (64 * n)) (hj : j < n) :
    limbOf (2 ^ (64 * n) - 1 - x) j = ~~~ limbOf x j := by
  refine BitVec.eq_of_getLsbD_eq fun k hk => ?_
  rw [BitVec.getLsbD_not, getLsbD_limbOf, getLsbD_limbOf, Nat.sub_sub, Nat.add_comm 1 x,
    Nat.testBit_two_pow_sub_succ hx]
  simp [hk, show 64 * j + k < 64 * n by omega]

/-- NOT completes with the complements of the limbs of A, and changes nothing else. -/
theorem completes_bitNot (rd rs1 : Reg) (la : Len) {s : State} (h : s.Ready) :
    ∃ u, Completes (.bitNot rd rs1 la) s u ∧
      (∀ j < limbs la, u.limb rd j = .word (~~~ limbOf (operandA s rs1 la) j)) ∧
      Frame [(rd, limbs la)] .noFlag s u ∧ SameRandom s u := by
  let i := Instr.bitNot rd rs1 la
  have ha : (latchOf i s).a.toNat = operandA s rs1 la := latchOf_a rfl
  refine completes_words i h rfl rfl (limbs_le la) ?_
  rw [exec_accepted i h, progressOf, ha]

/-- Settles O41: the limbs that `completes_bitNot` writes are those that were read, complemented, and by
`limbOf_two_pow_sub_one_sub` those of 2^(64 L_A) - 1 - A. -/
theorem notComplementsEachLimb : Obligations.NotComplementsEachLimb := by
  intro rd rs1 la s h
  obtain ⟨u, hdone, hlimb, hframe⟩ := completes_bitNot rd rs1 la h
  have hA : operandA s rs1 la < 2 ^ (64 * limbs la) := operandA_lt s rs1 la
  have hnumber (j : Nat) (hj : j < limbs la) :
      u.limb rd j = .word (limbOf (2 ^ (64 * limbs la) - 1 - operandA s rs1 la) j) := by
    rw [hlimb j hj, limbOf_two_pow_sub_one_sub hA hj]
  refine ⟨rfl, rfl, encodingFaults .bitNot s, u, hdone, fun j hj => ?_, ?_, hframe⟩
  · rw [hlimb j hj, limbOf_operandA s rs1 la hj]
  · rw [value_of_limbs hnumber, Nat.mod_eq_of_lt (by omega)]

end Sys2Proof.Machine

/-! # Proofs about the multiplication engine (spec/45_multiply.md): MUL and MULF -/

namespace Sys2Proof.Machine

/-! ### The checks of the multiplier and of two destinations (spec/60_exceptions.md R102) -/

theorem checkDests_or_of_eq {rd rd2 : Reg} (h : rd = rd2) (k : Option Cause) :
    (checkDests rd rd2).or k = some .destConflict := by
  rw [checkDests, if_pos h, Option.some_or]

theorem checkDests_or_of_ne {rd rd2 : Reg} (h : rd ≠ rd2) (k : Option Cause) : (checkDests rd rd2).or k = k := by
  rw [checkDests, if_neg h, Option.none_or]

/-- LENGTH_MISMATCH comes before any later check `k`. -/
theorem checkEqualLengths_or_of_ne {la lb : Len} (h : limbs la ≠ limbs lb) (k : Option Cause) :
    (checkEqualLengths la lb).or k = some .lengthMismatch := by
  rw [checkEqualLengths, if_neg h, Option.some_or]

theorem checkEqualLengths_or_of_eq {la lb : Len} (h : limbs la = limbs lb) (k : Option Cause) :
    (checkEqualLengths la lb).or k = k := by
  rw [checkEqualLengths, if_pos h, Option.none_or]

theorem checkPow2_of_refused {la : Len} (h : limbs la = 3 ∨ limbs la = 5 ∨ limbs la = 6 ∨ limbs la = 7) :
    checkPow2 la = some .lengthNotPow2 := by
  rw [checkPow2, if_neg]
  rcases h with h | h | h | h <;> rw [h] <;> decide

theorem checkPow2_of_accepted {la : Len} (h : limbs la = 1 ∨ limbs la = 2 ∨ limbs la = 4 ∨ limbs la = 8) :
    checkPow2 la = none := by
  rw [checkPow2, if_pos]
  simpa using h

/-! ### MUL (spec/45_multiply.md R82) -/

/-- The step that completes an accepted MUL, on the operands as they were read at its issue. -/
theorem exec_mul_accepted (rd rs1 rs2 : Reg) (la lb : Len) {s : State} (h : s.Ready) :
    let i := Instr.mul rd rs1 rs2 la lb
    exec i (accepted i s) = .next (complete (wrL rd (limbs la)
      (operandA s rs1 la * operandB s rs2 lb % 2 ^ (64 * limbs la)) (accepted i s))) := by
  intro i
  have ha : (latchOf i s).a.toNat = operandA s rs1 la := latchOf_a rfl
  have hb : (latchOf i s).b.toNat = operandB s rs2 lb := latchOf_b rfl
  rw [exec_accepted i h, progressOf, ha, hb]

/-- Settles O43: lengths decide between `faults_of_wordCheck` and the completion, which writes the product cut to L
limbs. -/
theorem mulGivesTheLowHalf : Obligations.MulGivesTheLowHalf := by
  intro rd rs1 rs2 la lb s h A B L
  refine ⟨rfl, rfl, encodingFaults .mul s, fun hne => faults_of_wordCheck h (checkEqualLengths_or_of_ne hne _),
    fun hlen hrefused => ?_, fun hlen haccepted => ?_⟩
  · exact faults_of_wordCheck h ((checkEqualLengths_or_of_eq hlen _).trans (checkPow2_of_refused hrefused))
  · have hcheck := (checkEqualLengths_or_of_eq hlen _).trans (checkPow2_of_accepted haccepted)
    obtain ⟨u, hdone, hvalue, hframe⟩ :=
      completes_value (.mul rd rs1 rs2 la lb) h hcheck rfl (limbs_le la) (exec_mul_accepted rd rs1 rs2 la lb h)
    exact ⟨u, hdone, by rw [hvalue, Nat.mod_mod], hframe⟩

/-! ### MULF (spec/45_multiply.md R83) -/

/-- The step that completes an accepted MULF, on the operands as they were read at its issue. -/
theorem exec_mulf_accepted (rd rd2 rs1 rs2 : Reg) (la lb : Len) {s : State} (h : s.Ready) :
    let i := Instr.mulf rd rd2 rs1 rs2 la lb
    let product := operandA s rs1 la * operandB s rs2 lb
    exec i (accepted i s) = .next (complete (wrL rd2 (limbs la) (product / 2 ^ (64 * limbs la))
      (wrL rd (limbs la) (product % 2 ^ (64 * limbs la)) (accepted i s)))) := by
  intro i product
  have ha : (latchOf i s).a.toNat = operandA s rs1 la := latchOf_a rfl
  have hb : (latchOf i s).b.toNat = operandB s rs2 lb := latchOf_b rfl
  rw [exec_accepted i h, progressOf, ha, hb]

/-- Settles O44: destinations and lengths decide between `faults_of_wordCheck` and the completion. The high half is not
cut, since the product of two numbers below 2^(64 L) is below 2^(64 L) squared. -/
theorem mulfGivesTheExactProduct : Obligations.MulfGivesTheExactProduct := by
  intro rd rd2 rs1 rs2 la lb s h A B L
  refine ⟨rfl, rfl, encodingFaults .mulf s, fun heq => faults_of_wordCheck h (checkDests_or_of_eq heq _),
    fun hdest hne => ?_, fun hdest hlen hrefused => ?_, fun hdest hlen haccepted => ?_⟩
  · exact faults_of_wordCheck h ((checkDests_or_of_ne hdest _).trans (checkEqualLengths_or_of_ne hne _))
  · exact faults_of_wordCheck h ((checkDests_or_of_ne hdest _).trans
      ((checkEqualLengths_or_of_eq hlen _).trans (checkPow2_of_refused hrefused)))
  · have hcheck := (checkDests_or_of_ne hdest _).trans
      ((checkEqualLengths_or_of_eq hlen _).trans (checkPow2_of_accepted haccepted))
    obtain ⟨u, hdone, hlow, hhigh, hframe⟩ := completes_two (.mulf rd rd2 rs1 rs2 la lb) h hcheck rfl (limbs_le la) hdest
      (exec_mulf_accepted rd rd2 rs1 rs2 la lb h)
    have hA : A < 2 ^ (64 * L) := operandA_lt s rs1 la
    have hB : B < 2 ^ (64 * L) := hlen ▸ operandB_lt s rs2 lb
    have hfit : A * B / 2 ^ (64 * L) < 2 ^ (64 * L) := Nat.div_lt_of_lt_mul (Nat.mul_lt_mul'' hA hB)
    refine ⟨u, A * B % 2 ^ (64 * L), A * B / 2 ^ (64 * L), hdone, ?_, ?_, Nat.mod_lt _ (Nat.two_pow_pos _),
      (Nat.div_add_mod' ..).symm, hframe⟩
    · rw [hlow, Nat.mod_mod]
    · rw [hhigh, Nat.mod_eq_of_lt hfit]

end Sys2Proof.Machine

/-! # Proofs about the division engine (spec/46_divide.md): DIV, REM and DIVR -/

namespace Sys2Proof.Machine

/-! ### The divisor check (spec/60_exceptions.md R102, check 8) -/

theorem checkDivisor_latchOf_of_zero {i : Instr} {s : State} {r : Reg} {lb : Len}
    (hsource : sourceB i = some (r, limbs lb)) (hzero : operandB s r lb = 0) : checkDivisor (latchOf i s) = some .divZero :=
  (checkDivisor_latchOf hsource).trans (if_pos hzero)

theorem checkDivisor_latchOf_of_ne_zero {i : Instr} {s : State} {r : Reg} {lb : Len}
    (hsource : sourceB i = some (r, limbs lb)) (hne : operandB s r lb ≠ 0) : checkDivisor (latchOf i s) = none :=
  (checkDivisor_latchOf hsource).trans (if_neg hne)

/-! ### DIV and REM (spec/46_divide.md R86, R87) -/

/-- What the model's functions say of a two-operand command `op` that checks for equal lengths and then for a divisor of
0, and writes one number `f A B` no greater than A (spec/46_divide.md R84). -/
structure IsDivision (op : Reg → Reg → Reg → Len → Len → Instr) (f : Nat → Nat → Nat) : Prop where
  sourceA_eq : ∀ {rd rs1 rs2 la lb}, sourceA (op rd rs1 rs2 la lb) = some (rs1, limbs la)
  sourceB_eq : ∀ {rd rs1 rs2 la lb}, sourceB (op rd rs1 rs2 la lb) = some (rs2, limbs lb)
  wordCheck_eq : ∀ {rd rs1 rs2 la lb s}, wordCheck s (op rd rs1 rs2 la lb) = checkEqualLengths la lb
  valueCheck_eq : ∀ {rd rs1 rs2 la lb p}, valueCheck (op rd rs1 rs2 la lb) p = checkDivisor p
  progressOf_eq : ∀ {rd rs1 rs2 la lb p s},
    progressOf (op rd rs1 rs2 la lb) p s = complete (wrL rd (limbs la) (f p.a.toNat p.b.toNat) s)
  le_dividend : ∀ a b, f a b ≤ a

theorem isDivision_div : IsDivision .div (· / ·) := ⟨rfl, rfl, rfl, rfl, rfl, Nat.div_le_self⟩

theorem isDivision_rem : IsDivision .rem (· % ·) := ⟨rfl, rfl, rfl, rfl, rfl, Nat.mod_le⟩

section
variable {op : Reg → Reg → Reg → Len → Len → Instr} {f : Nat → Nat → Nat} (hop : IsDivision op f)
  (rd rs1 rs2 : Reg) {la lb : Len} {s : State} (h : s.Ready)
include hop h

theorem IsDivision.faults_lengthMismatch (hne : limbs la ≠ limbs lb) :
    Faults .lengthMismatch (op rd rs1 rs2 la lb) s :=
  faults_of_wordCheck h (hop.wordCheck_eq.trans (if_neg hne))

theorem IsDivision.faults_divZero (hlen : limbs la = limbs lb) (hzero : operandB s rs2 lb = 0) :
    Faults .divZero (op rd rs1 rs2 la lb) s :=
  faults_of_valueCheck h (hop.wordCheck_eq.trans (if_pos hlen))
    (hop.valueCheck_eq.trans (checkDivisor_latchOf_of_zero hop.sourceB_eq hzero))

/-- The result is not cut to L limbs, since it is no greater than the dividend. -/
theorem IsDivision.completes (hlen : limbs la = limbs lb) (hB : operandB s rs2 lb ≠ 0) :
    ∃ u, Completes (op rd rs1 rs2 la lb) s u ∧
      u.value rd (limbs la) = some (f (operandA s rs1 la) (operandB s rs2 lb)) ∧
      Frame [(rd, limbs la)] .noFlag s u ∧ SameRandom s u := by
  have hfit : f (operandA s rs1 la) (operandB s rs2 lb) < 2 ^ (64 * limbs la) :=
    (hop.le_dividend _ _).trans_lt (operandA_lt s rs1 la)
  have hcheck : valueCheck (op rd rs1 rs2 la lb) (latchOf (op rd rs1 rs2 la lb) s) = none :=
    hop.valueCheck_eq.trans (checkDivisor_latchOf_of_ne_zero hop.sourceB_eq hB)
  obtain ⟨u, hdone, hvalue, hframe⟩ :=
    completes_value (op rd rs1 rs2 la lb) h (hop.wordCheck_eq.trans (if_pos hlen)) hcheck (limbs_le la)
      ((exec_accepted _ h).trans (congrArg _ hop.progressOf_eq))
  rw [latchOf_a hop.sourceA_eq, latchOf_b hop.sourceB_eq, Nat.mod_eq_of_lt hfit] at hvalue
  exact ⟨u, hdone, hvalue, hframe⟩

end

/-- Settles O45: lengths and divisor decide between the two faults and the completion of a division by `/`. -/
theorem divGivesTheQuotient : Obligations.DivGivesTheQuotient := fun rd rs1 rs2 _ _ s h =>
  ⟨rfl, rfl, encodingFaults .div s, isDivision_div.faults_lengthMismatch rd rs1 rs2 h,
    isDivision_div.faults_divZero rd rs1 rs2 h, isDivision_div.completes rd rs1 rs2 h⟩

/-- Settles O46: lengths and divisor decide between the two faults and the completion of a division by `%`. -/
theorem remGivesTheRemainder : Obligations.RemGivesTheRemainder := fun rd rs1 rs2 _ _ s h =>
  ⟨rfl, rfl, encodingFaults .rem s, isDivision_rem.faults_lengthMismatch rd rs1 rs2 h,
    isDivision_rem.faults_divZero rd rs1 rs2 h, isDivision_rem.completes rd rs1 rs2 h⟩

/-! ### DIVR (spec/46_divide.md R85) -/

/-- The step that completes an accepted DIVR, on the operands as they were read at its issue. -/
theorem exec_divr_accepted (rd rd2 rs1 rs2 : Reg) (la lb : Len) {s : State} (h : s.Ready) :
    let i := Instr.divr rd rd2 rs1 rs2 la lb
    let A := operandA s rs1 la
    let B := operandB s rs2 lb
    exec i (accepted i s) =
      .next (complete (wrL rd2 (limbs la) (A % B) (wrL rd (limbs la) (A / B) (accepted i s)))) := by
  intro i A B
  have ha : (latchOf i s).a.toNat = A := latchOf_a rfl
  have hb : (latchOf i s).b.toNat = B := latchOf_b rfl
  rw [exec_accepted i h, progressOf, ha, hb]

/-- Settles O47: destinations, lengths and divisor decide between the faults and the completion, which writes A / B and
A mod B. Neither is cut to L limbs, since neither is greater than A. -/
theorem divrGivesQuotientAndRemainder : Obligations.DivrGivesQuotientAndRemainder := by
  intro rd rd2 rs1 rs2 la lb s h A B L
  have hwordCheck (hdest : rd ≠ rd2) (hlen : L = limbs lb) : wordCheck s (.divr rd rd2 rs1 rs2 la lb) = none :=
    (checkDests_or_of_ne hdest _).trans (if_pos hlen)
  refine ⟨rfl, rfl, encodingFaults .divr s, fun heq => faults_of_wordCheck h (checkDests_or_of_eq heq _),
    fun hdest hne => ?_, fun hdest hlen hzero => ?_, fun hdest hlen hB => ?_⟩
  · exact faults_of_wordCheck h ((checkDests_or_of_ne hdest _).trans (if_neg hne))
  · exact faults_of_valueCheck h (hwordCheck hdest hlen) (checkDivisor_latchOf_of_zero rfl hzero)
  · obtain ⟨u, hdone, hquotient, hremainder, hframe⟩ :=
      completes_two (.divr rd rd2 rs1 rs2 la lb) h (hwordCheck hdest hlen)
        (checkDivisor_latchOf_of_ne_zero rfl hB) (limbs_le la) hdest (exec_divr_accepted rd rd2 rs1 rs2 la lb h)
    have hA : A < 2 ^ (64 * L) := operandA_lt s rs1 la
    refine ⟨u, A / B, A % B, hdone, ?_, ?_, (Nat.div_add_mod A B).symm,
      Nat.mod_lt A (Nat.pos_of_ne_zero hB), hframe⟩
    · rw [hquotient, Nat.mod_eq_of_lt ((Nat.div_le_self A B).trans_lt hA)]
    · rw [hremainder, Nat.mod_eq_of_lt ((Nat.mod_le A B).trans_lt hA)]

end Sys2Proof.Machine

/-! # Proofs about SMP's random words and its accepted candidate (spec/47_sample.md) -/

namespace Sys2Proof.Machine

/-! ### The write of the accepted candidate (spec/47_sample.md R89, R90) -/

/-- The turn of an SMP in flight whose candidate is accepted. -/
theorem exec_smp_of_accepted {rd rs1 : Reg} {la : Len} {s : State} {p : Latch} {g : Sampler} (hf : s.fault = false)
    (hp : s.pending = some p) (hg : s.sampler = some g) (hl : g.left = 0) :
    exec (.smp rd rs1 la) s = .next (complete (writeWords rd (limbs la) (wordAt g.cand) s)) := by
  have hsg : samplerOf p.a.toNat s = g := by simp [samplerOf, hg]
  rw [exec_inFlight _ hf hp, progressOf, sampleProgress_of_accepted hsg hl]

/-- The limbs of RD that hold the candidate once it is written. -/
theorem limb_complete_writeWords (rd : Reg) {n j : Nat} (g : Nat → Word) (s : State) (hn : n ≤ 8) (hj : j < n) :
    (complete (writeWords rd n g s)).limb rd j = .word (g j) := by
  rw [limb_complete, limb_writeWords _ _ _ _ _ _ hn, if_pos ⟨rfl, hj⟩]

/-- Settles O49: the turn is `exec_smp_of_accepted`, a write of RD and a completion. -/
theorem smpWritesTheAcceptedCandidate : Obligations.SmpWritesTheAcceptedCandidate := by
  intro rd rs1 la s p g hf hp hg hl
  have hlimbs (j : Nat) (hj : j < limbs la) := limb_complete_writeWords rd (wordAt g.cand) s (limbs_le la) hj
  exact ⟨_, exec_smp_of_accepted hf hp hg hl, rfl, rfl, hlimbs, value_eq_wordsValue hlimbs,
    frame_complete_writeWords rd _ _ s (limbs_le la), rfl, rfl⟩

/-- The bound of an accepted SMP is not 0 and fits its length, so its top limb is one of the limbs written. -/
theorem Latch.Accepted.topLimb_lt {p : Latch} {rd rs1 : Reg} {la : Len} (h : p.Accepted) (hc : p.cmd = .smp rd rs1 la) :
    topLimb p.a.toNat < limbs la := by
  have hbound : p.a ≠ 0 := h.bound (by rw [hc]; rfl)
  exact topLimb_bound (fun h0 => hbound (toNat_eq_zero h0)) (h.widthA rs1 (limbs la) (by rw [hc]; rfl))

/-- A candidate with no limb left to draw is below the bound: it differs from the bound, and the highest limb in which it
differs is the smaller one and stands at or below the bound's top limb. -/
theorem Sampler.Ok.candidate_lt {x n : Nat} {g : Sampler} (h : g.Ok x) (hl : g.left = 0) (ht : topLimb x < n) :
    wordsValue g.cand n < x := by
  have heq : g.eq = false := Bool.eq_false_iff.mpr fun he => absurd hl (h.tied he).1.ne'
  obtain ⟨j, -, hlt, habove⟩ := h.below heq
  have hj : j < n := by
    by_contra hn
    rw [limbOf_zero_above (by omega)] at hlt
    exact BitVec.not_lt_zero hlt
  exact (wordsValue_lt g.cand x j n hj hlt habove).trans_le (Nat.mod_le _ _)

/-- Settles O50: the value written is the candidate, and `Sampler.Ok.candidate_lt` puts it below the bound. -/
theorem sampleIsBelowItsBound : Obligations.SampleIsBelowItsBound := by
  intro rd rs1 la s p g hinv hp hc hg hl
  have hf : s.fault = false := Bool.eq_false_iff.mpr fun hf => by simp [hinv.halted hf] at hp
  obtain ⟨u, he, hidle, -, -, hvalue, -⟩ := smpWritesTheAcceptedCandidate rd rs1 la s p g hf hp hg hl
  exact ⟨u, _, he, hidle, hvalue, (hinv.sampler p g hp hg).candidate_lt hl ((hinv.accepted p hp).topLimb_lt hc)⟩

/-! ### Who takes a random word (spec/47_sample.md R88) -/

/-- The unit takes the oldest word offered, for an SMP in flight that needs it. -/
def TakesWord (s t : State) : Prop :=
  t.rngCursor = s.rngCursor + 1 ∧ rngReady s = true ∧ ∃ w, s.rngQueue = w :: t.rngQueue

/-- An SMP in flight with a limb left to draw asserts `rng_ready`. -/
theorem rngReady_of_left {s : State} {p : Latch} {rd rs1 : Reg} {la : Len} (x : Nat) (hp : s.pending = some p)
    (hc : p.cmd = .smp rd rs1 la) (hl : (samplerOf x s).left ≠ 0) : rngReady s = true := by
  obtain ⟨cmd, a, b, data, bytelen, bytebuf⟩ := p
  obtain rfl : cmd = .smp rd rs1 la := hc
  cases hg : s.sampler with
  | none => simp [rngReady, hp, hg]
  | some g => simpa [rngReady, samplerOf, hp, hg] using hl

/-- The progress of a command in flight leaves the random source alone, or it is an SMP's that takes the next word. -/
theorem progressOf_random {s : State} {p : Latch} (hp : s.pending = some p) :
    SameRandom s (progressOf p.cmd p s) ∨ TakesWord s (progressOf p.cmd p s) := by
  cases hc : p.cmd
  case smp rd rs1 la =>
    rw [progressOf]
    by_cases hl : (samplerOf p.a.toNat s).left = 0
    · rw [sampleProgress_of_accepted rfl hl]
      exact .inl ⟨rfl, rfl⟩
    · cases hq : s.rngQueue with
      | nil =>
        rw [sampleProgress_of_starved rfl hl hq]
        exact .inl ⟨rfl, rfl⟩
      | cons w ws =>
        rw [sampleProgress_of_word rfl hl hq]
        exact .inr ⟨rfl, rngReady_of_left _ hp hc hl, w, hq⟩
  all_goals exact .inl ⟨rfl, rfl⟩

theorem unitProgress_random {s t : State} (h : unitProgress s = .next t) : SameRandom s t ∨ TakesWord s t := by
  unfold unitProgress at h
  split at h
  next =>
    cases h
    exact .inl ⟨rfl, rfl⟩
  next p hp =>
    cases hf : s.fault
    · cases (exec_inFlight p.cmd hf hp).symm.trans h
      exact progressOf_random hp
    · cases (exec_of_fault p.cmd hf).symm.trans h
      exact .inl ⟨rfl, rfl⟩

theorem sameRandom_takeFault (k : Cause) (c : Word) (ds : List (Reg × Nat)) (f : FlagName) (s : State) :
    SameRandom s (takeFault k c ds f s) := ⟨takeFault_rngQueue .., takeFault_rngCursor ..⟩

/-- The offer of a command to a ready unit takes no random word. -/
theorem offerCommand_sameRandom {c : Word} {s t : State} (hr : s.Ready) (h : offerCommand c s = .next t) :
    SameRandom s t := by
  unfold offerCommand at h
  split at h
  next i _ =>
    cases (exec_of_ready i hr).symm.trans h
    rcases issue_cases i (wordCheck s i) (valueCheck i) s with ⟨k, -, hi⟩ | ⟨k, -, -, hi⟩ | ⟨-, -, hi⟩ <;> rw [hi]
    · exact sameRandom_takeFault ..
    · simp [SameRandom, takeCommandFault]
    · exact sameRandom_accepted i s
  all_goals
    cases h
    exact sameRandom_takeFault ..

/-- No host write takes a random word. -/
theorem busWrite_sameRandom {o : BitVec 10} {w : Nat} {v : Word} {s t : State} (h : busWrite o w v s = .next t) :
    SameRandom s t := by
  rcases busWrite_cases o w v s with hw | ⟨-, -, -, hw⟩ | ⟨p, -, -, hw⟩ | ⟨-, -, hr, hw⟩ | ⟨-, d, l, b, hw⟩
  · cases hw.symm.trans h
    exact ⟨rfl, rfl⟩
  · cases hw.symm.trans h
    exact ⟨rfl, rfl⟩
  · cases hw.symm.trans h
    exact sameRandom_takeFault ..
  · exact offerCommand_sameRandom hr (hw.symm.trans h)
  · cases hw.symm.trans h
    exact ⟨rfl, rfl⟩

/-- Settles O29: only the unit's own progress can take a word, and only the source's offer extends the queue. -/
theorem randomWordsAreTakenOnlyBySmp : Obligations.RandomWordsAreTakenOnlyBySmp := by
  intro s t hstep
  cases hi : s.inputs with
  | nil =>
    simp only [step, hi] at hstep
    exact (unitProgress_random hstep).imp_left fun ⟨hq, hc⟩ => ⟨hc, hq⟩
  | cons e rest =>
    rw [step_cons hi] at hstep
    cases e with
    | tick => exact (unitProgress_random hstep).imp_left fun ⟨hq, hc⟩ => ⟨hc, hq⟩
    | read o w =>
      obtain ⟨-, hread⟩ := busAccess_eq_next hstep
      rw [busRead_eq] at hread
      cases hread
      exact .inl ⟨rfl, rfl⟩
    | write o w v =>
      obtain ⟨-, hwrite⟩ := busAccess_eq_next hstep
      obtain ⟨hq, hc⟩ := busWrite_sameRandom hwrite
      exact .inl ⟨hc, hq⟩
    | offer | rstHigh | rstLow =>
      cases hstep
      exact .inl ⟨rfl, rfl⟩

end Sys2Proof.Machine

/-! # Proofs about the constructors (spec/48_wrapper.md): ZERO, LDW and LDB -/

namespace Sys2Proof.Machine

/-- Settles O31: `complete (wrL rd 8 0 _)` writes all 8 limbs, and ZERO has no source whose read could touch an UNDEF limb. -/
theorem zeroWritesZero : Obligations.ZeroWritesZero := by
  intro rd s h
  have hread : (accepted (.zero rd) s).readUndef = s.readUndef := by
    simp [accepted, readsUndef, sourceA, sourceB, sourceUndef]
  have hvalue : (wrL rd 8 0 (accepted (.zero rd) s)).value rd 8 = some 0 :=
    (value_wrL rd 8 0 _ (Nat.le_refl 8)).trans (congrArg some (Nat.zero_mod _))
  exact ⟨rfl, rfl, encodingFaults .zero s, _, completes_of h rfl rfl (exec_accepted _ h) rfl, hvalue,
    (frame_accepted _).trans (frame_complete_writeWords rd _ _ _ (Nat.le_refl 8)), sameRandom_accepted _ s, hread⟩

/-- Limb 0 of a word is the word. -/
theorem limbOf_toNat_zero (w : Word) : limbOf w.toNat 0 = w := by
  simp [limbOf]

/-- Settles O32: LDW writes the limbs of DATA as a number, and a number below 2^64 has no limb above limb 0. -/
theorem ldwWritesData : Obligations.LdwWritesData := by
  intro rd s h
  obtain ⟨u, hdone, hlimbs, hframe⟩ :=
    completes_words (.ldw rd) (g := limbOf s.data.toNat) h rfl rfl (Nat.le_refl 8) (exec_accepted _ h)
  refine ⟨rfl, rfl, encodingFaults .ldw s, u, hdone, ?_, fun j hpos hj => ?_, hframe⟩
  · rw [hlimbs 0 (by decide), limbOf_toNat_zero]
  · rw [hlimbs j hj, limbOf_eq_zero (n := 1) s.data.isLt hpos]

/-- Byte `k` of the sequence as a number, where R32 places it. -/
theorem toNat_byteAt (buf : Vector Word 8) (k : Nat) :
    (byteAt buf k).toNat = (wordAt buf (k / 8)).toNat / 2 ^ (56 - 8 * (k % 8)) % 256 := by
  rw [byteAt, BitVec.extractLsb'_toNat, Nat.shiftRight_eq_div_pow]

/-- LDB's number, built byte by byte in Horner's way, as the sum that R95 writes. -/
theorem bytesValue_eq_sum (buf : Vector Word 8) (n : Nat) :
    bytesValue buf n = ∑ k ∈ Finset.range n, (byteAt buf k).toNat * 256 ^ (n - 1 - k) := by
  induction n with
  | zero => rfl
  | succ n ih =>
    have hshift : ∀ k ∈ Finset.range n, (byteAt buf k).toNat * 256 ^ (n - 1 - k) * 256 =
        (byteAt buf k).toNat * 256 ^ (n + 1 - 1 - k) := by
      intro k hk
      have hlt : k < n := Finset.mem_range.mp hk
      rw [Nat.mul_assoc, ← Nat.pow_succ, show (n - 1 - k).succ = n + 1 - 1 - k by omega]
    rw [bytesValue, ih, Finset.sum_mul, Finset.sum_congr rfl hshift, Finset.sum_range_succ, Nat.add_sub_cancel,
      Nat.sub_self, Nat.pow_zero, Nat.mul_one]

/-- Eight bytes fit a limb, so `8 n` of them fit `n` limbs. -/
theorem bytesValue_lt_limbs (buf : Vector Word 8) {k n : Nat} (h : k ≤ 8 * n) : bytesValue buf k < 2 ^ (64 * n) :=
  (bytesValue_lt buf k).trans_le (Nat.pow_le_pow_right Nat.two_pos (by omega))

/-- For at most 64 bytes LDB completes with their big-endian number, which fits 8 limbs, and changes nothing else. -/
theorem completes_ldb (rd : Reg) {s : State} (h : s.Ready) (hshort : s.bytelen.toNat ≤ 64) :
    ∃ u, Completes (.ldb rd) s u ∧ u.value rd 8 = some (bytesValue s.bytebuf s.bytelen.toNat) ∧
      Frame [(rd, 8)] .noFlag s u ∧ SameRandom s u := by
  have hcheck : wordCheck s (.ldb rd) = none := if_neg (by omega)
  obtain ⟨u, hdone, hvalue, hframe⟩ := completes_value (.ldb rd) h hcheck rfl (Nat.le_refl 8) (exec_accepted _ h)
  have hfits : bytesValue s.bytebuf s.bytelen.toNat < 2 ^ (64 * 8) := bytesValue_lt_limbs _ hshort
  exact ⟨u, hdone, hvalue.trans (congrArg some (Nat.mod_eq_of_lt hfits)), hframe⟩

/-- Settles O33: BYTELEN decides between `faults_ldb` and `completes_ldb`, whose number is `bytesValue_eq_sum`. -/
theorem ldbImportsBigEndianBytes : Obligations.LdbImportsBigEndianBytes := by
  intro rd s h n b
  refine ⟨rfl, rfl, encodingFaults .ldb s, faults_ldb rd h, fun hshort => ?_⟩
  obtain ⟨u, hdone, hvalue, hframe⟩ := completes_ldb rd h hshort
  simp only [bytesValue_eq_sum, toNat_byteAt] at hvalue
  exact ⟨u, hdone, hvalue, hframe⟩

end Sys2Proof.Machine

/-! # Proofs about checks and faults (spec/60_exceptions.md), and the unit's own step -/

namespace Sys2Proof.Machine

/-! ### The first failing check, and acceptance (spec/60_exceptions.md R98, R101, R102) -/

/-- A command offered to a ready unit takes the fault of its first failing check. -/
theorem faults_of_firstCause {i : Instr} {s : State} {k : Cause} (h : s.Ready) (hc : firstCause s i = some k) :
    Faults k i s := by
  rw [firstCause_eq, Option.or_eq_some_iff] at hc
  rcases hc with hw | ⟨hw, hv⟩
  · exact faults_of_wordCheck h hw
  · exact faults_of_valueCheck h hw hv

/-- A command offered to a ready unit that fails no check is accepted. -/
theorem exec_of_firstCause_none {i : Instr} {s : State} (h : s.Ready) (hc : firstCause s i = none) :
    exec i s = .next (accepted i s) := by
  rw [firstCause_eq, Option.or_eq_none_iff] at hc
  obtain ⟨hw, hv⟩ := hc
  rw [exec_of_ready i h, hw, issue_accepts hv, accepted]

/-- The progress of a command in flight takes no fault. -/
theorem progressOf_fault (i : Instr) (p : Latch) (s : State) : (progressOf i p s).fault = s.fault := by
  obtain ⟨_, _, _, _, _, _, _, he⟩ := progressOf_changes i p s
  rw [he]

/-- Settles O11: an offered value does not decode, or its command meets `faults_of_firstCause` or `exec_of_firstCause_none`;
in flight a command makes progress, and progress takes no fault. -/
theorem firstFailingCheckIsReported : Obligations.FirstFailingCheckIsReported := by
  refine ⟨fun c s h => ?_, fun i s t hf hbusy hexec => ?_⟩
  · cases hd : decode c with
    | error e =>
      cases e with
      | illegalOpcode => exact ⟨_, by rw [offerCommand, hd], faultEntry_takeFault _ c _ _ s (by simp)⟩
      | reservedField i => exact ⟨_, by rw [offerCommand, hd]; rfl, faultEntry_takeFault _ c _ _ s (destsOf_le i)⟩
    | ok i =>
      rw [offerCommand_of_decode hd]
      dsimp only
      cases hc : firstCause s i with
      | none => exact ⟨_, exec_of_firstCause_none h hc, rfl, frame_accepted i, sameRandom_accepted i s⟩
      | some k =>
        obtain ⟨t, hexec, hfault⟩ := faults_of_firstCause h hc
        exact ⟨t, hexec, legalCommandValuesAreUnique c i hd ▸ hfault⟩
  · obtain ⟨p, hp⟩ := Option.isSome_iff_exists.mp hbusy
    cases (exec_inFlight i hf hp).symm.trans hexec
    exact (progressOf_fault i p s).trans hf

/-! ### Taking a fault (spec/60_exceptions.md R103, R104) -/

/-- Settles O14: it is `faultEntry_takeFault`, field by field. -/
theorem takingAFaultIsTheEntry : Obligations.TakingAFaultIsTheEntry :=
  faultEntry_takeFault

/-- A conforming write to CTRL with bit 0 = 1 resets the unit (spec/10_state.md R34). -/
theorem busWrite_ctrl_set {v : Word} (hv : v.getLsbD 0 = true) (s : State) :
    busWrite 0x028 8 v s = .next (unitReset s) :=
  congrArg Host.Outcome.next (if_pos hv)

/-- A conforming write to CTRL with bit 0 = 0 has no effect (spec/10_state.md R34). -/
theorem busWrite_ctrl_clear {v : Word} (hv : v.getLsbD 0 = false) (s : State) : busWrite 0x028 8 v s = .next s :=
  congrArg Host.Outcome.next (if_neg (Bool.eq_false_iff.mp hv))

/-- Settles O15: the step is the write, and the write is `busWrite_inFlight`, a fault entry, or `busWrite_ctrl_set`. -/
theorem busyWriteAbortsTheCommand : Obligations.BusyWriteAbortsTheCommand := by
  intro s p o v rest hi hrst hf hp
  refine ⟨fun ho => ?_, fun ho hv => ?_⟩
  · obtain ⟨h8, hslot⟩ : o.toNat % 8 = 0 ∧
        (o.toNat = 0x000 ∨ o.toNat = 0x010 ∨ o.toNat = 0x018 ∨ (0x040 ≤ o.toNat ∧ o.toNat < 0x080)) := by
      rcases ho with rfl | rfl | rfl | ⟨h1, h2, h8⟩
      · decide
      · decide
      · decide
      · exact ⟨h8, .inr (.inr (.inr ⟨h1, h2⟩))⟩
    exact ⟨_, (step_write hrst hi).trans (busWrite_inFlight (s := { s with inputs := rest }) h8 hf hp hslot v),
      faultEntry_takeFault _ _ _ _ _ (destsOf_le p.cmd)⟩
  · subst ho
    exact (step_write hrst hi).trans (busWrite_ctrl_set hv _)

/-! ### The unit's own step (spec/60_exceptions.md R99) -/

theorem unitProgress_of_pending {s : State} {p : Latch} (hp : s.pending = some p) : unitProgress s = exec p.cmd s := by
  simp only [unitProgress, hp]

theorem unitProgress_of_idle {s : State} (hp : s.pending = none) : unitProgress s = .next s := by
  simp only [unitProgress, hp]

/-- With no input listed the unit makes progress by itself (notes/assumptions/3.md). -/
theorem step_nil {s : State} (hi : s.inputs = []) : step s = unitProgress s := by
  simp only [step, hi]

/-- Settles O7: with no input listed and with a tick the step is the unit's progress, which runs the command in flight. -/
theorem stepAdvancesTheCommandInFlight : Obligations.StepAdvancesTheCommandInFlight := fun s _ hp =>
  ⟨fun hi => (step_nil hi).trans (unitProgress_of_pending hp),
    fun rest hi => (step_cons hi).trans (unitProgress_of_pending (s := { s with inputs := rest }) hp)⟩

end Sys2Proof.Machine

/-! # Proofs about reset (spec/70_reset_and_hazards.md R114): the access that is not admitted, and the reset itself -/

namespace Sys2Proof.Machine

theorem busAccess_of_rst_high {s : State} (hr : s.rst = true) (access : Out) :
    busAccess s access = .refused .accessDuringReset := by
  simp [busAccess, hr]

/-- While `rst` is high a bus access is refused. -/
theorem step_access_of_rst_high {s : State} {o : BitVec 10} {w : Nat} {rest : List Input} (hr : s.rst = true)
    (hi : s.inputs = .read o w :: rest ∨ ∃ v, s.inputs = .write o w v :: rest) :
    step s = .refused .accessDuringReset := by
  rcases hi with hi | ⟨v, hi⟩
  · exact (step_cons hi).trans (busAccess_of_rst_high hr _)
  · exact (step_cons hi).trans (busAccess_of_rst_high hr _)

/-- Settles O8: only a bus access looks at `rst`, and every other input, like an admitted access, answers a next state. -/
theorem onlyAccessDuringResetStops : Obligations.OnlyAccessDuringResetStops := by
  refine fun s => ⟨?_, fun _ _ _ => step_access_of_rst_high⟩
  cases hi : s.inputs with
  | nil =>
    rw [step_nil hi]
    exact .inl (unitProgress_next s)
  | cons e rest =>
    cases e with
    | tick =>
      rw [step_cons hi]
      exact .inl (unitProgress_next _)
    | read o w =>
      cases hr : s.rst
      · exact .inl ⟨_, step_read hr hi⟩
      · exact .inr ⟨rfl, step_access_of_rst_high hr (.inl hi), o, w, rest, .inl rfl⟩
    | write o w v =>
      cases hr : s.rst
      · rw [step_write hr hi]
        exact .inl (busWrite_next ..)
      · exact .inr ⟨rfl, step_access_of_rst_high hr (.inr ⟨v, hi⟩), o, w, rest, .inr ⟨v, rfl⟩⟩
    | offer | rstHigh | rstLow => exact .inl ⟨_, step_cons hi⟩

/-- The reset values speak of the unit's own state: neither the inputs, nor `rst`, nor the words offered are in them. -/
theorem ResetValues.withEnvironment {s : State} (h : ResetValues s) (inputs : List Input) (rst : Bool)
    (queue : List Word) : ResetValues { s with inputs := inputs, rst := rst, rngQueue := queue } where
  limb := h.limb
  busy := h.busy
  fault := h.fault
  c := h.c
  cmpr := h.cmpr
  fcause := h.fcause
  fcmd := h.fcmd
  data := h.data
  bytelen := h.bytelen
  bytebuf := h.bytebuf
  latch := h.latch
  progress := h.progress

/-- While `rst` is high a step keeps the reset values and takes no random word. -/
theorem step_keeps_resetValues {s t : State} (hr : s.rst = true) (hv : ResetValues s) (hstep : step s = .next t) :
    ResetValues t ∧ t.rngCursor = s.rngCursor := by
  cases hi : s.inputs with
  | nil =>
    cases ((step_nil hi).trans (unitProgress_of_idle hv.latch)).symm.trans hstep
    exact ⟨hv, rfl⟩
  | cons e rest =>
    cases e with
    | tick =>
      have htick : step s = .next { s with inputs := rest } :=
        (step_cons hi).trans (unitProgress_of_idle (s := { s with inputs := rest }) hv.latch)
      cases htick.symm.trans hstep
      exact ⟨hv.withEnvironment .., rfl⟩
    | read => cases (step_access_of_rst_high hr (.inl hi)).symm.trans hstep
    | write => cases (step_access_of_rst_high hr (.inr ⟨_, hi⟩)).symm.trans hstep
    | offer | rstLow =>
      cases (step_cons hi).symm.trans hstep
      exact ⟨hv.withEnvironment .., rfl⟩
    | rstHigh =>
      cases (step_cons hi).symm.trans hstep
      exact ⟨(resetValues_unitReset _).withEnvironment .., rfl⟩

/-- Settles O18: both ways of resetting end in `unitReset`, whose values are `resetValues_unitReset`. -/
theorem resetFromAnyState : Obligations.ResetFromAnyState := by
  refine fun s rest => ⟨fun v hi hr => ⟨fun hv => ?_, fun hv => ?_⟩, fun hi => ?_, fun t => step_keeps_resetValues, rfl⟩
  · exact ⟨_, (step_write hr hi).trans (busWrite_ctrl_set hv _), resetValues_unitReset _, rfl, ⟨rfl, rfl⟩, rfl, hr⟩
  · exact (step_write hr hi).trans (busWrite_ctrl_clear hv _)
  · exact ⟨_, step_cons hi, (resetValues_unitReset _).withEnvironment .., rfl, ⟨rfl, rfl⟩, rfl, rfl⟩

end Sys2Proof.Machine
